-- ==== Sys2Proof/Word.lean ====
section
/-! DEFINITION. The two words of the block: the 16-bit command word (`30_encoding.md` R80) and the byte (`00_scope.md` R9). -/

namespace Sys2Proof

/-- A byte is 8 bits (`00_scope.md` R9). -/
abbrev Byte := BitVec 8

/-- A word of the command port, `cmd_word[15:0]` (`30_encoding.md` R80, R92). -/
abbrev Word := BitVec 16

end Sys2Proof
end

