-- ==== Sys2Proof/Syntax.lean ====
section
/-! DEFINITION. The commands of the block: one constructor for each of the seventeen rows of `spec/opcode_table.json`
(`30_encoding.md` R84). -/

namespace Sys2Proof

/-- A command. The operand of `rbPush`, `segEnc` and `segShow` is `IMM8`, used as is (`30_encoding.md` R85); the operand
of the two bulk pushes is the payload of the packet, `LEN` bytes (R82). -/
inductive Instr where
  /-- `SYS_NOP` (`44_control_loop.md` R183). -/
  | sysNop
  /-- `SYS_RUN` (`44_control_loop.md` R184). -/
  | sysRun
  /-- `RB_PUSH b` (`40_ring_buffer.md` R101). -/
  | rbPush (b : Byte)
  /-- `RB_POP` (`40_ring_buffer.md` R102). -/
  | rbPop
  /-- `RB_PUSHB bytes` (`40_ring_buffer.md` R104). -/
  | rbPushB (bytes : List Byte)
  /-- `RB_PUSHBS bytes` (`40_ring_buffer.md` R105). -/
  | rbPushBS (bytes : List Byte)
  /-- `DB_SAMPLE` (`41_debounce.md` R121). -/
  | dbSample
  /-- `DB_EDGE` (`41_debounce.md` R124). -/
  | dbEdge
  /-- `SEG_ENC d` (`42_seven_segment.md` R139). -/
  | segEnc (d : Byte)
  /-- `SEG_SHOW d` (`42_seven_segment.md` R140). -/
  | segShow (d : Byte)
  /-- `SEG_PAGE` (`42_seven_segment.md` R141). -/
  | segPage
  /-- `SL_ADDR` (`43_scanline_pipeline.md` R152). -/
  | slAddr
  /-- `SL_ENQ` (`43_scanline_pipeline.md` R153). -/
  | slEnq
  /-- `SL_DRAIN1` (`43_scanline_pipeline.md` R154). -/
  | slDrain1
  /-- `SL_LINE` (`43_scanline_pipeline.md` R155). -/
  | slLine
  /-- `PG_STEP` (`44_control_loop.md` R181). -/
  | pgStep
  /-- `EG_XFER` (`44_control_loop.md` R182). -/
  | egXfer
deriving DecidableEq, Repr

/-- The push commands, the only ones the command port accepts while the sequencer runs (`30_encoding.md` R92). -/
def Instr.isPush : Instr → Bool
  | .rbPush _ | .rbPushB _ | .rbPushBS _ => true
  | .sysNop | .sysRun | .rbPop | .dbSample | .dbEdge | .segEnc _ | .segShow _ | .segPage => false
  | .slAddr | .slEnq | .slDrain1 | .slLine | .pgStep | .egXfer => false

end Sys2Proof
end

