-- ==== Sys2Proof/WellFormed.lean ====
section
/-! DEFINITION. What an encoding can carry: a bulk packet has at most 255 payload bytes (`30_encoding.md` R80, R82). -/

namespace Sys2Proof

/-- The payload lengths an 8-bit `LEN` can name (`30_encoding.md` R82). -/
def payloadFits (bytes : List Byte) : Bool := decide (bytes.length ≤ 255)

/-- An instruction that some command word or packet stands for. -/
def Instr.wellFormed : Instr → Bool
  | .rbPushB bytes => payloadFits bytes
  | .rbPushBS bytes => payloadFits bytes
  | .sysNop | .sysRun | .rbPush _ | .rbPop | .dbSample | .dbEdge | .segEnc _ | .segShow _ | .segPage => true
  | .slAddr | .slEnq | .slDrain1 | .slLine | .pgStep | .egXfer => true

/-- The well-formed instructions, as a proposition `decide` runs on. -/
abbrev WellFormed (i : Instr) : Prop := i.wellFormed = true

end Sys2Proof
end

