-- ==== Sys2Proof/Decode.lean ====
section
/-! DEFINITION. The command decoder, total on any list of words, and the encoder (`30_encoding.md`). The port moves 16-bit
words (R80, R92) and the spec gives them no byte order (`20_memory.md` R62), so the decoder reads words (log 20). -/

namespace Sys2Proof

/-! ### Fields of a word (R81) -/

/-- `UNIT`, bits 15:12. -/
def unitOf (w : Word) : BitVec 4 := w.extractLsb' 12 4

/-- `FUNC`, bits 11:8. -/
def funcOf (w : Word) : BitVec 4 := w.extractLsb' 8 4

/-- `IMM8`, bits 7:0. -/
def immOf (w : Word) : Byte := w.extractLsb' 0 8

/-- Bits 15:8, which a payload word has at 0x00 (R82). -/
def highByteOf (w : Word) : Byte := w.extractLsb' 8 8

/-- The word of format S with these fields (R81). -/
def wordOf (u f : BitVec 4) (imm : Byte) : Word := u ++ f ++ imm

/-! ### The opcode map (R84) -/

/-- What a first word stands for: a whole command, or the header of a bulk packet. -/
inductive Header where
  | single (i : Instr)
  | bulk (stopOnSentinel : Bool)
deriving DecidableEq, Repr

/-- One row of the opcode map: a word `w` selects the row when `w & mask = mtch`. -/
structure OpcodeRow where
  mtch : Word
  mask : Word
  build : Byte → Header

/-- The seventeen rows of R84, in the table's order. -/
def opcodeRows : List OpcodeRow := [
  ⟨0x0000, 0xFFFF, fun _ => .single .sysNop⟩,
  ⟨0x0100, 0xFFFF, fun _ => .single .sysRun⟩,
  ⟨0x1000, 0xFF00, fun b => .single (.rbPush b)⟩,
  ⟨0x1100, 0xFFFF, fun _ => .single .rbPop⟩,
  ⟨0x1200, 0xFF00, fun _ => .bulk false⟩,
  ⟨0x1300, 0xFF00, fun _ => .bulk true⟩,
  ⟨0x2000, 0xFFFF, fun _ => .single .dbSample⟩,
  ⟨0x2100, 0xFFFF, fun _ => .single .dbEdge⟩,
  ⟨0x3000, 0xFF00, fun d => .single (.segEnc d)⟩,
  ⟨0x3100, 0xFF00, fun d => .single (.segShow d)⟩,
  ⟨0x3200, 0xFFFF, fun _ => .single .segPage⟩,
  ⟨0x4000, 0xFFFF, fun _ => .single .slAddr⟩,
  ⟨0x4100, 0xFFFF, fun _ => .single .slEnq⟩,
  ⟨0x4200, 0xFFFF, fun _ => .single .slDrain1⟩,
  ⟨0x4300, 0xFFFF, fun _ => .single .slLine⟩,
  ⟨0x5000, 0xFFFF, fun _ => .single .pgStep⟩,
  ⟨0x6000, 0xFFFF, fun _ => .single .egXfer⟩]

/-- The row a word selects (R84: rows do not overlap). -/
def rowOf (w : Word) : Option OpcodeRow := opcodeRows.find? fun r => w &&& r.mask == r.mtch

/-- Why words are not a command: the classes (a) to (d) of R86, and a packet of which words are still missing. -/
inductive Reject where
  /-- There is no word. -/
  | noWord
  /-- A bulk header with fewer than `LEN` words after it: not yet a packet (R88). -/
  | incompletePacket
  /-- R86 (a): `UNIT` is 0x7 to 0xF. -/
  | unassignedUnit
  /-- R86 (b): `FUNC` is not listed for its `UNIT`. -/
  | unassignedFunc
  /-- R86 (c): the command has no immediate and `IMM8` is not 0x00. -/
  | nonzeroImmediate
  /-- R86 (d): a payload word has bits 15:8 not 0x00. -/
  | payloadHighByte
deriving DecidableEq, Repr

/-- The class of R86 that a word without a row falls under. -/
def rejectOf (w : Word) : Reject :=
  if opcodeRows.any fun r => unitOf r.mtch == unitOf w && funcOf r.mtch == funcOf w then .nonzeroImmediate
  else if opcodeRows.any fun r => unitOf r.mtch == unitOf w then .unassignedFunc
  else .unassignedUnit

/-! ### Decoding -/

/-- The bytes of payload words, none when a high byte is not 0x00 (R82, R86 (d)). -/
def payloadBytes : List Word → Option (List Byte)
  | [] => some []
  | w :: ws => if highByteOf w = 0 then (payloadBytes ws).map (immOf w :: ·) else none

/-- The bulk command with this payload (R82: `stop_on_sentinel` = (`FUNC` = 0x3)). -/
def bulkInstr (stop : Bool) (bytes : List Byte) : Instr := if stop then .rbPushBS bytes else .rbPushB bytes

/-- The packet behind a bulk header with length field `len` (R82, R88). -/
def decodeBulk (stop : Bool) (len : Nat) (ws : List Word) : Except Reject (Instr × List Word) :=
  if ws.length < len then .error .incompletePacket
  else match payloadBytes (ws.take len) with
    | some bytes => .ok (bulkInstr stop bytes, ws.drop len)
    | none => .error .payloadHighByte

/-- The decoder: the first command of a list of words and the words after it, or why there is none. -/
def decode : List Word → Except Reject (Instr × List Word)
  | [] => .error .noWord
  | w :: ws =>
    match rowOf w with
    | none => .error (rejectOf w)
    | some r =>
      match r.build (immOf w) with
      | .single i => .ok (i, ws)
      | .bulk stop => decodeBulk stop (immOf w).toNat ws

/-- The number of words of a command, from word 0 alone (R88: `word[15:9] = 0b0001001`). -/
def packetLength (w : Word) : Nat :=
  if w.extractLsb' 9 7 = (0b0001001 : BitVec 7) then 1 + (immOf w).toNat else 1

/-! ### Encoding -/

/-- A payload word: the byte in bits 7:0, bits 15:8 at 0x00 (R82). -/
def payloadWord (b : Byte) : Word := (0x00 : Byte) ++ b

/-- A bulk packet: header with `IMM8 = LEN`, then the payload words (R82). -/
def bulkPacket (f : BitVec 4) (bytes : List Byte) : List Word :=
  wordOf 0x1 f (BitVec.ofNat 8 bytes.length) :: bytes.map payloadWord

/-- The words of an instruction (R84, columns UNIT, FUNC and IMM8). -/
def encode : Instr → List Word
  | .sysNop => [wordOf 0x0 0x0 0x00]
  | .sysRun => [wordOf 0x0 0x1 0x00]
  | .rbPush b => [wordOf 0x1 0x0 b]
  | .rbPop => [wordOf 0x1 0x1 0x00]
  | .rbPushB bytes => bulkPacket 0x2 bytes
  | .rbPushBS bytes => bulkPacket 0x3 bytes
  | .dbSample => [wordOf 0x2 0x0 0x00]
  | .dbEdge => [wordOf 0x2 0x1 0x00]
  | .segEnc d => [wordOf 0x3 0x0 d]
  | .segShow d => [wordOf 0x3 0x1 d]
  | .segPage => [wordOf 0x3 0x2 0x00]
  | .slAddr => [wordOf 0x4 0x0 0x00]
  | .slEnq => [wordOf 0x4 0x1 0x00]
  | .slDrain1 => [wordOf 0x4 0x2 0x00]
  | .slLine => [wordOf 0x4 0x3 0x00]
  | .pgStep => [wordOf 0x5 0x0 0x00]
  | .egXfer => [wordOf 0x6 0x0 0x00]

/-! ### Taking a command from the port -/

/-- What the words waiting at the command port offer. -/
inductive Fetched where
  /-- No whole command is there yet. -/
  | nothing
  /-- An illegal command, taken and refused in place, and the words after it. -/
  | illegal (why : Reject) (rest : List Word)
  /-- A command and the words after it. -/
  | command (i : Instr) (rest : List Word)
deriving DecidableEq, Repr

/-- The command at the front of the words. The whole packet is received before anything is done with it (R88), so an
incomplete packet is nothing yet; an illegal command is as long as its word 0 says (R88, R91). -/
def fetch (ws : List Word) : Fetched :=
  match decode ws, ws with
  | .ok (i, rest), _ => .command i rest
  | .error .noWord, _ => .nothing
  | .error .incompletePacket, _ => .nothing
  | .error _, [] => .nothing
  | .error why, w :: _ => .illegal why (ws.drop (packetLength w))

/-! ### The numbering of `spec/opcode_table.json` -/

/-- The words of an instruction whose bits are `w`, bit 0 the least significant bit of the first word and 16 bits to a
word, with every bit from `nbits` on 0; as many words as the longest packet has (R80: 256). -/
def tableWords (nbits w : Nat) : List Word :=
  (List.range 256).map fun k => BitVec.ofNat 16 ((w % 2 ^ nbits) >>> (16 * k))

/-- The words of exactly the instruction at the front of `tableWords`. -/
def tablePacket (nbits w : Nat) : List Word :=
  (tableWords nbits w).take (packetLength (BitVec.ofNat 16 (w % 2 ^ nbits)))

/-- The instruction the decoder reads from an instruction whose bits are `w`. -/
def decodeTableWord (nbits w : Nat) : Option Instr :=
  match decode (tablePacket nbits w) with
  | .ok (i, _) => some i
  | .error _ => none

end Sys2Proof
end

