-- ==== Sys2Proof/Config.lean ====
section
/-! DEFINITION. The parameters of the block (`00_scope.md` R6, R7) as plain data. A machine carries one `Config`, which no
step changes (`10_state.md` R46: parameters are not state); a statement about every state is a statement about every
configuration. The constraints of R8 are `configOk` of Machine/Ops.lean. Assumption log 1 and 2. -/

namespace Sys2Proof

/-- The named parameters of `00_scope.md` R6 and R7. The parameters to which the spec gives one value and no choice
(`DB_STAGES` 3, `DB_INTERVAL_MS` 10, `PIXEL_BITS` 16, `SEG_ENTRIES` 10, `SEG_BLANK` 0xFF, `DIGIT_OFFSET` 1, `PAGE_RESET`
and `LINE_RESET` 0) are constants of the definitions that use them. -/
structure Config where
  /-- `RB_SIZE`: slots of the ring array (D8, open). -/
  rbSize : Nat
  /-- `POP_DEFAULT`: the byte `RB_POP` returns on empty (D9, U1). -/
  popDefault : Byte
  /-- `SENTINEL`: the byte that stops a bulk push (D10, U2). -/
  sentinel : Byte
  /-- `SENTINEL_ENQUEUED`: whether the sentinel itself is pushed (D10, U2, N5). -/
  sentinelEnqueued : Bool
  /-- `TIME_W`: width of `now` and `t_last` (D12). -/
  timeW : Nat
  /-- `TICKS_PER_MS`: ticks of `now` per millisecond (D12). -/
  ticksPerMs : Nat
  /-- `BTN_ACTIVE_LOW`: physical low = logically pressed (R6, R122). -/
  btnActiveLow : Bool
  /-- `SEG_TABLE[0..9]`: the ten table bytes (D15, R137). -/
  segTable : List Byte
  /-- `PAGE_NUM`: number of pages (R6, open). -/
  pageNum : Nat
  /-- `FRAME_HEIGHT`: lines per page (R6, open). -/
  frameHeight : Nat
  /-- `FRAME_WIDTH`: pixels per line (R6, open). -/
  frameWidth : Nat
  /-- `ADDR_W`: width of a scanline address (D18). -/
  addrW : Nat
  /-- `ADDR_SCALE`: address units per pixel (D18, C2). -/
  addrScale : Nat
  /-- `IMAGE_BASE`: address of pixel (0,0,0) (D18, open). -/
  imageBase : Nat
  /-- `VALID_DEPTH`: slots of the valid queue (D19, open). -/
  validDepth : Nat
  /-- `FREE_DEPTH`: slots of the free queue (D19, open). -/
  freeDepth : Nat
  /-- `IDENT_STRING`: identification bytes queued at boot (D23, open). -/
  identString : List Byte
deriving DecidableEq, Repr

/-- The default glyph table of `42_seven_segment.md` R137 (G1: from general knowledge, a parameter). -/
def Config.defaultSegTable : List Byte :=
  [0xC0, 0xF9, 0xA4, 0xB0, 0x99, 0x92, 0x82, 0xF8, 0x80, 0x90]

/-- The configuration of `State.reset`: the defaults of `00_scope.md` R7 and, for the parameters that have none, the
values of program P3 of `95_test_vectors.md`. DESIGN CHOICE (log 2): the device's numbers are in no source. -/
def Config.default : Config where
  rbSize := 4
  popDefault := 0x00
  sentinel := 0x00
  sentinelEnqueued := false
  timeW := 32
  ticksPerMs := 1000
  btnActiveLow := true
  segTable := Config.defaultSegTable
  pageNum := 2
  frameHeight := 3
  frameWidth := 4
  addrW := 32
  addrScale := 2
  imageBase := 0x1000
  validDepth := 1
  freeDepth := 2
  identString := [0x3E]

end Sys2Proof
end

