-- ==== Sys2Proof/Machine/State.lean ====
section
/-! DEFINITION. The state of the block (`10_state.md` R20), its ports and its environment as plain data, the reasons a step
can stop, and the state after reset (`70_reset_and_hazards.md` R220). INVENTORY.md lists every field with its rule. -/

namespace Sys2Proof.Machine

open Sys2Proof

/-- The ring buffer: the slots of `buf` as a list of (slot, byte) in canonical form (log 5), `head` the next write slot
and `tail` the next read slot (`10_state.md` R21 to R23). -/
structure Ring where
  buf : List Host.Cell
  head : Nat
  tail : Nat
deriving DecidableEq, Repr

/-- The result record of a command; a command sets the fields its rule names and the others are 0
(`10_state.md` R39, `30_encoding.md` R90). -/
structure Result where
  ok : Bool := false
  data : Byte := 0
  count : BitVec 8 := 0
  edge : Bool := false
  illegal : Bool := false
  addr : Nat := 0
deriving DecidableEq, Repr

/-- What the block shows of the last step: `res` with `res_valid` (none: `res_valid` = 0), and the serial strobe `tx_wr`
with `tx_data` (none: `tx_wr` = 0) (`10_state.md` R45; log 12). -/
structure Outputs where
  res : Option Result := none
  tx : Option Byte := none
deriving DecidableEq, Repr

/-- The levels at the input ports `now`, `btn_raw`, `tx_ready` (`10_state.md` R44). -/
structure Inputs where
  now : Nat
  btnRaw : Bool
  txReady : Bool
deriving DecidableEq, Repr

/-- One step of one agent, as the schedule names it (`00_scope.md` R12, R13; log 7). A move of CL carries the inputs
drawn for the step; a move that is not enabled changes nothing. -/
inductive Move where
  /-- CL takes a command from the command port (`30_encoding.md` R92). -/
  | host (inp : Inputs)
  /-- CL goes on by itself: a sequencer step, or another try of a held `SL_ENQ` (`44_control_loop.md` R186). -/
  | cl (inp : Inputs)
  /-- `DE_START` (`43_scanline_pipeline.md` R162). -/
  | deStart
  /-- `DE_TAKE` (`43_scanline_pipeline.md` R163). -/
  | deTake
  /-- `DE_RET` of the held address the index names, modulo their number (`43_scanline_pipeline.md` R164; log 15). -/
  | deRet (choice : Nat)
  /-- A step with `rst` = 1, after which the ring array holds these bytes (`70_reset_and_hazards.md` R220; log 16). -/
  | rst (contents : List Byte)
deriving DecidableEq, Repr

/-- Why the machine stops with a fault. The block has no fault (`00_scope.md` R13, `60_exceptions.md` R200). -/
inductive Fault where
  /-- Raised by `RB_PUSH`, `RB_POP`, `RB_PUSHB`, `RB_PUSHBS` and `EG_XFER` in a state whose `head` or `tail` is no slot of
  the ring array, which R22 and R23 say does not exist. Safe: no state of the invariant raises it (log 6). -/
  | ringIndexOutOfRange
deriving DecidableEq, Repr

/-- Why a step has no meaning. -/
inductive Refusal where
  /-- Raised by exec for an instruction that has no meaning yet. Safe. -/
  | notModelled (mnemonic : String)
  /-- Raised by every step of a machine whose configuration breaks `00_scope.md` R8 ("A model refuses a configuration that
  breaks one of these"). Safe. -/
  | badConfiguration
deriving DecidableEq, Repr

/-- The machine. -/
structure State where
  /-- The parameters; no step writes them (`10_state.md` R46; log 1). -/
  cfg : Config
  /-- RB: `buf`, `head`, `tail` (R21 to R23). -/
  ring : Ring
  /-- DB: `s[0]`, the most recent sample (R26). -/
  s0 : Bool
  /-- DB: `s[1]` (R26). -/
  s1 : Bool
  /-- DB: `s[2]`, the oldest sample (R26). -/
  s2 : Bool
  /-- DB: the stable output level (R27). -/
  stable : Bool
  /-- DB: the value `stable` had at the last edge step (R28). -/
  prev : Bool
  /-- DB: `t_last`, the timestamp of the last sample (R29). -/
  tLast : Nat
  /-- The result of the last edge step (R30). -/
  edge : Bool
  /-- CL: the page index (R31). -/
  page : Nat
  /-- SL: the line index (R32). -/
  line : Nat
  /-- SL: `sl_addr`, the latched scanline address (R33). -/
  slAddr : Nat
  /-- SL: the valid queue, front first (R34). -/
  valid : List Nat
  /-- SL: the free queue, front first (R35). -/
  free : List Nat
  /-- SEG: `seg_out`, bit k the level of output line k (R36). -/
  segOut : BitVec 8
  /-- CL: the sequencer runs (R37). -/
  run : Bool
  /-- CL: the sequencer's position (R38). -/
  phase : BitVec 3
  /-- CL is inside an `SL_ENQ` that waits for room (R92, R153, R186, R205; log 11). -/
  held : Bool
  /-- DE: `de_started` (R40). -/
  deStarted : Bool
  /-- DE: `de_held`, oldest first (R41). -/
  deHeld : List Nat
  /-- Observation: bytes written to the serial port, oldest first (R42). -/
  txLog : List Byte
  /-- Observation: addresses enqueued on `valid`, oldest first (R42). -/
  validLog : List Nat
  /-- Output ports of the last step (R39, R45). -/
  out : Outputs
  /-- Input ports (R44). -/
  inp : Inputs
  /-- The words HOST presents at the command port, the next one first (R45, `30_encoding.md` R92). -/
  cmdIn : List Word
  /-- The steps to come, the next one first (R46; log 7). -/
  sched : List Move
deriving DecidableEq, Repr

/-- What a command or a step answers. -/
abbrev Answer := Host.Outcome State Fault Refusal

/-- The state after reset of a block with these parameters whose ring array holds `buf` (`70_reset_and_hazards.md` R220,
`10_state.md` R21 to R42). The ports and the schedule are the model's own (log 9, log 12, log 19). -/
def State.resetWith (cfg : Config) (buf : List Host.Cell) : State where
  cfg := cfg
  ring := { buf := buf, head := 0, tail := 0 }
  s0 := false
  s1 := false
  s2 := false
  stable := false
  prev := false
  tLast := 0
  edge := false
  page := 0
  line := 0
  slAddr := 0
  valid := []
  free := []
  segOut := 0xFF
  run := false
  phase := 0
  held := false
  deStarted := false
  deHeld := []
  txLog := []
  validLog := []
  out := { res := none, tx := none }
  inp := { now := 0, btnRaw := true, txReady := false }
  cmdIn := []
  sched := []

/-- The machine right after reset, with the configuration of log 2 and a ring array of zeros (log 5). -/
def State.reset : State := State.resetWith Config.default []

end Sys2Proof.Machine
end

