-- ==== Sys2Proof/Machine/Ops.lean ====
section
/-! DEFINITION. The shared operations: the ring array, the ring buffer, the hand-off queues, results, the refusal of an
illegal command, reset and the constraints on the parameters. The block has no exceptions (`60_exceptions.md` R200, R204), so
no exception entry stands here; what stands in its place is `State.refuseCommand` (`30_encoding.md` R91). -/

namespace Sys2Proof.Machine

open Sys2Proof

/-! ### The ring array (`20_memory.md` R60, R61; log 5) -/

/-- What a slot that no cell lists reads as. DESIGN CHOICE (log 5). -/
def unlistedByte : Byte := 0

/-- `MemRead(a, 1)` on the ring array (`00_scope.md` R10). -/
def memRead : List Host.Cell → Nat → Byte
  | [], _ => unlistedByte
  | (a', b) :: m, a => if a' = a then b else memRead m a

/-- `MemWrite(a, 1, b)` on the ring array (`00_scope.md` R10), keeping the canonical form. -/
def memWrite : List Host.Cell → Nat → Byte → List Host.Cell
  | [], a, b => if b = unlistedByte then [] else [(a, b)]
  | (a', b') :: m, a, b =>
    if a < a' then if b = unlistedByte then (a', b') :: m else (a, b) :: (a', b') :: m
    else if a = a' then if b = unlistedByte then m else (a, b) :: m
    else (a', b') :: memWrite m a b

/-- The canonical form from address `lo` on: addresses at least `lo` and strictly rising, no cell holding the byte an
unlisted slot reads as. -/
def memWfFrom : Nat → List Host.Cell → Bool
  | _, [] => true
  | lo, (a, b) :: m => decide (lo ≤ a) && decide (b ≠ unlistedByte) && memWfFrom (a + 1) m

/-- The canonical form of the ring array. -/
def Memory.wf (m : List Host.Cell) : Bool := memWfFrom 0 m

/-- Every listed cell is one of the `n` slots. -/
def memWithin (n : Nat) (m : List Host.Cell) : Bool := m.all fun c => decide (c.1 < n)

/-- The ring array whose slots from `a` on hold these bytes. -/
def memOfBytes : Nat → List Byte → List Host.Cell
  | _, [] => []
  | a, b :: bs => if b = unlistedByte then memOfBytes (a + 1) bs else (a, b) :: memOfBytes (a + 1) bs

/-! ### The ring buffer (`40_ring_buffer.md` R100 to R103); `n` is `RB_SIZE` -/

/-- `next(i)` (R100). -/
def ringNext (n i : Nat) : Nat := (i + 1) % n

/-- `Empty` (R100). -/
def Ring.isEmpty (r : Ring) : Bool := r.head == r.tail

/-- `Full` (R100). -/
def Ring.isFull (n : Nat) (r : Ring) : Bool := ringNext n r.head == r.tail

/-- The live count `(head - tail) mod RB_SIZE` (R100). -/
def Ring.count (n : Nat) (r : Ring) : Nat := (r.head + n - r.tail) % n

/-- `space`, the pushes that can succeed before a pop (R100). -/
def Ring.space (n : Nat) (r : Ring) : Nat := n - 1 - r.count n

/-- The live bytes, oldest first (`10_state.md` R24). -/
def Ring.live (n : Nat) (r : Ring) : List Byte :=
  (List.range (r.count n)).map fun k => memRead r.buf ((r.tail + k) % n)

/-- `head` and `tail` are slots (`10_state.md` R22, R23). -/
def Ring.inRange (n : Nat) (r : Ring) : Bool := decide (r.head < n) && decide (r.tail < n)

/-- One push and whether it succeeded (R101). -/
def Ring.push (n : Nat) (b : Byte) (r : Ring) : Ring × Bool :=
  if r.isFull n then (r, false)
  else ({ r with buf := memWrite r.buf r.head b, head := ringNext n r.head }, true)

/-- One pop: the byte and the ring after it, none on an empty buffer (R102). -/
def Ring.pop (n : Nat) (r : Ring) : Option (Byte × Ring) :=
  if r.isEmpty then none
  else some (memRead r.buf r.tail, { r with tail := ringNext n r.tail })

/-- `BulkPush(bytes, LEN, stop)` and its count (R103). With `SENTINEL_ENQUEUED` the sentinel that stops the push is itself
pushed and counted (D10; log 13). -/
def Ring.bulkPush (cfg : Config) (stop : Bool) : List Byte → Ring → Ring × Nat
  | [], r => (r, 0)
  | b :: bs, r =>
    if stop && b == cfg.sentinel then
      if cfg.sentinelEnqueued then
        match r.push cfg.rbSize b with
        | (r', true) => (r', 1)
        | (r', false) => (r', 0)
      else (r, 0)
    else
      match r.push cfg.rbSize b with
      | (r', true) => match Ring.bulkPush cfg stop bs r' with
        | (r'', k) => (r'', k + 1)
      | (r', false) => (r', 0)

/-! ### Answers of a command -/

/-- The command completes with this result and no write to the serial port (`30_encoding.md` R90, `44_control_loop.md`
R182: `tx_wr` is 0 in every step that does not write). -/
def State.ret (s : State) (r : Result) : State := { s with out := { res := some r, tx := none } }

/-- A ring access happens only at slots that exist; otherwise the machine stops (log 6). -/
def ringGuard (s t : State) : Answer :=
  if s.ring.inRange s.cfg.rbSize then .next t else .fault .ringIndexOutOfRange

/-- Refusal in place: nothing changes, `res.illegal` is 1 and every other field 0 (`30_encoding.md` R91; log 10). -/
def State.refuseCommand (s : State) : State := s.ret { illegal := true }

/-- The bulk command on this payload (`40_ring_buffer.md` R103 to R105). -/
def State.bulk (s : State) (stop : Bool) (bytes : List Byte) : State :=
  let p := s.ring.bulkPush s.cfg stop bytes
  { s with ring := p.1 }.ret { count := BitVec.ofNat 8 p.2 }

/-- Every step begins with no result and no strobe (log 12). -/
def State.quiet (s : State) : State := { s with out := { res := none, tx := none } }

/-! ### The hand-off queues (`43_scanline_pipeline.md` R158) -/

/-- The valid queue has no room (`00_scope.md` R10, `Full(q)`; log 17). -/
def State.validFull (s : State) : Bool := decide (s.cfg.validDepth ≤ s.valid.length)

/-- The free queue has no room (log 17). -/
def State.freeFull (s : State) : Bool := decide (s.cfg.freeDepth ≤ s.free.length)

/-! ### Reset -/

/-- What a step with `rst` = 1 leaves: every register, queue and history at its reset value, the ring array at any bytes;
the parameters, what HOST presents, the input levels and the schedule are not the block's (`70_reset_and_hazards.md` R220;
log 16). -/
def State.applyReset (s : State) (contents : List Byte) : State :=
  { State.resetWith s.cfg (memOfBytes 0 (contents.take s.cfg.rbSize)) with
    inp := s.inp, cmdIn := s.cmdIn, sched := s.sched }

/-! ### The parameters -/

/-- `DB_INTERVAL_TICKS = DB_INTERVAL_MS * TICKS_PER_MS`, the interval being 10 ms (`00_scope.md` R6, R7). With `TICKS_PER_MS`
= 0 it is 0 and every `DB_SAMPLE` passes the gate of `41_debounce.md` R121 (log 25). -/
def intervalTicks (c : Config) : Nat := 10 * c.ticksPerMs

/-- Address units of the whole image store (`20_memory.md` R65). -/
def storeSize (c : Config) : Nat := c.addrScale * (c.pageNum * c.frameHeight * c.frameWidth)

/-- The width of an index into `n` things, `max(1, ceil(log2(n)))` (`00_scope.md` R7). -/
def indexWidth (n : Nat) : Nat := if n ≤ 2 then 1 else Nat.log2 (n - 1) + 1

/-- The constraints of `00_scope.md` R8, with the table's ten entries (R6) and the 255 bytes of `IDENT_STRING` (R7). R8 sets no
lower bound on `DB_INTERVAL_TICKS`, and none is set here: `TICKS_PER_MS` = 0 is accepted, so `41_debounce.md` R127 (d) holds
for an interval of at least 1 only (DESIGN CHOICE, log 25). -/
def configOk (c : Config) : Bool :=
  decide (2 ≤ c.rbSize)
    && decide (1 ≤ c.pageNum) && decide (c.pageNum ≤ 255)
    && decide (1 ≤ c.frameHeight) && decide (1 ≤ c.frameWidth)
    && decide (c.imageBase % 2 = 0)
    && decide (c.imageBase + storeSize c ≤ 2 ^ c.addrW)
    && decide (1 ≤ c.validDepth) && decide (1 ≤ c.freeDepth)
    && decide (intervalTicks c < 2 ^ c.timeW)
    && decide (c.segTable.length = 10) && c.segTable.all (fun b => b.getLsbD 7)
    && decide (c.identString.length ≤ 255)

end Sys2Proof.Machine
end

