-- ==== Sys2Proof/Machine/Operands.lean ====
section
/-! DEFINITION. What a command reads: its inputs, and the values computed from state (`30_encoding.md` R85, `10_state.md` R44).
An immediate is used as is and needs no computation. -/

namespace Sys2Proof.Machine

open Sys2Proof

/-- The input ports carry the levels drawn for a step, `now` on `TIME_W` bits (`10_state.md` R44, R45; log 9). -/
def State.latch (s : State) (i : Inputs) : State :=
  { s with inp := { now := i.now % 2 ^ s.cfg.timeW, btnRaw := i.btnRaw, txReady := i.txReady } }

/-- `elapsed = (now - t_last) mod 2^TIME_W` (`41_debounce.md` R121, `00_scope.md` R11 (e)). -/
def elapsed (w now tLast : Nat) : Nat := (now + (2 ^ w - tLast % 2 ^ w)) % 2 ^ w

/-- The time gate of `DB_SAMPLE` passes (`41_debounce.md` R121). -/
def State.gatePasses (s : State) : Bool :=
  decide (intervalTicks s.cfg ≤ elapsed s.cfg.timeW s.inp.now s.tLast)

/-- `Logical(btn_raw)` (`41_debounce.md` R122). -/
def logicalSample (activeLow btnRaw : Bool) : Bool := if activeLow then !btnRaw else btnRaw

/-- `SEG_BLANK`: all eight lines at level 1 (`42_seven_segment.md` R138). -/
def segBlank : Byte := 0xFF

/-- The encoder `Seg(d)`, total over bytes (`42_seven_segment.md` R138). -/
def seg (cfg : Config) (d : Byte) : Byte :=
  if d.toNat ≤ 9 then cfg.segTable.getD d.toNat segBlank else segBlank

/-- The digit shown for a page, `(page + DIGIT_OFFSET) mod 256` with `DIGIT_OFFSET` = 1 (`42_seven_segment.md` R141). -/
def digitOf (page : Nat) : Byte := BitVec.ofNat 8 (page + 1)

/-- `off_px(p, l)`, in pixels (`43_scanline_pipeline.md` R151). -/
def offPx (cfg : Config) (p l : Nat) : Nat := (p * cfg.frameHeight + l) * cfg.frameWidth

/-- `ScanAddr(p, l)`, a natural number (`43_scanline_pipeline.md` R151). -/
def scanAddr (cfg : Config) (p l : Nat) : Nat := cfg.imageBase + cfg.addrScale * offPx cfg p l

/-- The `ADDR_W` bits of `ScanAddr(page, line)` that the latch and the result carry; by R8 all of them (log 18). -/
def State.scanWord (s : State) : Nat := scanAddr s.cfg s.page s.line % 2 ^ s.cfg.addrW

/-- A counter increment with wrap to 0 at `n` (`00_scope.md` R11 (c)). -/
def wrapInc (n i : Nat) : Nat := if i + 1 = n then 0 else i + 1

end Sys2Proof.Machine
end

