-- ==== Sys2Proof/Machine/Flags.lean ====
section
/-! DEFINITION. The one flag of the block, `edge`, the consensus that feeds it, and the status outputs, which are functions of
the registers (`10_state.md` R25, R30, R45). -/

namespace Sys2Proof.Machine

open Sys2Proof

/-- `Consensus(a, b, c, old)` (`41_debounce.md` R123). -/
def consensus (a b c old : Bool) : Bool :=
  if a && b && c then true else if !a && !b && !c then false else old

/-- The rising edge, `(!prev) & stable` (`41_debounce.md` R124). -/
def risingEdge (prev stable : Bool) : Bool := !prev && stable

/-- `rb_empty` (`10_state.md` R25). -/
def State.rbEmpty (s : State) : Bool := s.ring.isEmpty

/-- `rb_full` (`10_state.md` R25). -/
def State.rbFull (s : State) : Bool := s.ring.isFull s.cfg.rbSize

/-- `cmd_ready`: CL is not in the middle of a command and not held (`30_encoding.md` R92; log 11). -/
def State.cmdReady (s : State) : Bool := !s.held

/-- `valid_nonempty`, towards the engine (`10_state.md` R45). -/
def State.validNonempty (s : State) : Bool := !s.valid.isEmpty

/-- `valid_front`, towards the engine, where there is one (`10_state.md` R45). -/
def State.validFront (s : State) : Option Nat := s.valid.head?

/-- A host command is accepted in this mode: any with `run` = 0, a push with `run` = 1 (`30_encoding.md` R86 (e), R92). -/
def State.accepts (s : State) (i : Instr) : Bool := !s.run || i.isPush

end Sys2Proof.Machine
end

