-- ==== Sys2Proof/Machine/Debounce.lean ====
section
/-! DEFINITION. The debounce filter commands (`41_debounce.md`). -/

namespace Sys2Proof.Machine

open Sys2Proof

/-- One sample taken: the timestamp, the shift of the register and the consensus on its new contents (R121). -/
def State.takeSample (s : State) : State :=
  let x := logicalSample s.cfg.btnActiveLow s.inp.btnRaw
  { s with
    tLast := s.inp.now
    s2 := s.s1
    s1 := s.s0
    s0 := x
    stable := consensus x s.s0 s.s1 s.stable }

/-- `DB_SAMPLE` (R121): samples when the time gate passes, else changes nothing. No result field is set (`30_encoding.md`
R90). -/
def execDbSample (s : State) : Answer :=
  .next ((if s.gatePasses then s.takeSample else s).ret {})

/-- `DB_EDGE` (R124). -/
def execDbEdge (s : State) : Answer :=
  let e := risingEdge s.prev s.stable
  .next ({ s with edge := e, prev := s.stable }.ret { edge := e })

end Sys2Proof.Machine
end

