-- ==== Sys2Proof/Machine/Egress.lean ====
section
/-! DEFINITION. The serial egress (`44_control_loop.md` R182). -/

namespace Sys2Proof.Machine

open Sys2Proof

/-- The byte leaves on the serial port: the strobe `tx_wr` with `tx_data`, and the history (R182). -/
def State.send (s : State) (b : Byte) (r : Ring) : State :=
  { s with
    ring := r
    txLog := s.txLog ++ [b]
    out := { res := some { data := b, ok := true }, tx := some b } }

/-- `EG_XFER` (R182): readiness is tested before the pop; at most one byte. -/
def execEgXfer (s : State) : Answer :=
  ringGuard s <|
    if s.inp.txReady then
      match s.ring.pop s.cfg.rbSize with
      | none => s.ret { ok := false }
      | some (b, r) => s.send b r
    else s.ret { ok := false }

end Sys2Proof.Machine
end

