-- ==== Sys2Proof/Machine/Segment.lean ====
section
/-! DEFINITION. The seven-segment commands (`42_seven_segment.md`). -/

namespace Sys2Proof.Machine

open Sys2Proof

/-- The adapter: drive the output lines with the encoding of a digit and answer it (R135, R140). -/
def State.display (s : State) (d : Byte) : State :=
  { s with segOut := seg s.cfg d }.ret { data := seg s.cfg d }

/-- `SEG_ENC d` (R139): the encoder alone, no state is written. -/
def execSegEnc (d : Byte) (s : State) : Answer := .next (s.ret { data := seg s.cfg d })

/-- `SEG_SHOW d` (R140). -/
def execSegShow (d : Byte) (s : State) : Answer := .next (s.display d)

/-- `SEG_PAGE` (R141). -/
def execSegPage (s : State) : Answer := .next (s.display (digitOf s.page))

end Sys2Proof.Machine
end

