-- ==== Sys2Proof/Machine/Page.lean ====
section
/-! DEFINITION. The page selector (`44_control_loop.md` R181). -/

namespace Sys2Proof.Machine

open Sys2Proof

/-- `PG_STEP` (R181): on an edge the page advances and the indicator shows the new page; without one nothing changes and
the result is what the indicator shows. `edge` is read, not cleared. -/
def execPgStep (s : State) : Answer :=
  if s.edge then .next ({ s with page := wrapInc s.cfg.pageNum s.page }.display (digitOf (wrapInc s.cfg.pageNum s.page)))
  else .next (s.ret { data := s.segOut })

end Sys2Proof.Machine
end

