-- ==== Sys2Proof/Machine/RingBuffer.lean ====
section
/-! DEFINITION. The ring buffer commands (`40_ring_buffer.md`). -/

namespace Sys2Proof.Machine

open Sys2Proof

/-- `RB_PUSH b` (R101): a full buffer drops the byte and nothing changes. -/
def execRbPush (b : Byte) (s : State) : Answer :=
  ringGuard s <|
    match s.ring.push s.cfg.rbSize b with
    | (r, ok) => { s with ring := r }.ret { ok := ok }

/-- `RB_POP` (R102): an empty buffer answers `POP_DEFAULT` and `ok` = 0. -/
def execRbPop (s : State) : Answer :=
  ringGuard s <|
    match s.ring.pop s.cfg.rbSize with
    | none => s.ret { data := s.cfg.popDefault, ok := false }
    | some (b, r) => { s with ring := r }.ret { data := b, ok := true }

/-- `RB_PUSHB {bytes}` (R104). -/
def execRbPushB (bytes : List Byte) (s : State) : Answer := ringGuard s (s.bulk false bytes)

/-- `RB_PUSHBS {bytes}` (R105). -/
def execRbPushBS (bytes : List Byte) (s : State) : Answer := ringGuard s (s.bulk true bytes)

end Sys2Proof.Machine
end

