-- ==== Sys2Proof/Machine/Scanline.lean ====
section
/-! DEFINITION. The scanline pipeline commands (`43_scanline_pipeline.md`). -/

namespace Sys2Proof.Machine

open Sys2Proof

/-- `SL_ADDR` (R152). -/
def execSlAddr (s : State) : Answer :=
  .next ({ s with slAddr := s.scanWord }.ret { addr := s.scanWord })

/-- `SL_ENQ` (R153): holds while the valid queue has no room. A hold changes no register and returns no result; CL stays
inside the command, which `held` says (log 11). -/
def execSlEnq (s : State) : Answer :=
  if s.validFull then .next { s.quiet with held := true }
  else
    .next ({ s with
      valid := s.valid ++ [s.slAddr]
      validLog := s.validLog ++ [s.slAddr]
      held := false }.ret { ok := true, addr := s.slAddr })

/-- `SL_DRAIN1` (R154): one try-dequeue of the free queue. -/
def execSlDrain1 (s : State) : Answer :=
  match s.free with
  | [] => .next (s.ret { ok := false })
  | a :: rest => .next ({ s with free := rest }.ret { ok := true, addr := a })

/-- `SL_LINE` (R155). -/
def execSlLine (s : State) : Answer :=
  .next ({ s with line := wrapInc s.cfg.frameHeight s.line }.ret {})

end Sys2Proof.Machine
end

