-- ==== Sys2Proof/Machine/Sys.lean ====
section
/-! DEFINITION. The SYS commands (`44_control_loop.md` R183, R184). -/

namespace Sys2Proof.Machine

open Sys2Proof

/-- `SYS_NOP`: no state changes, `res` all 0 (R183). -/
def execSysNop (s : State) : Answer := .next (s.ret {})

/-- `SYS_RUN`: `run <- 1; phase <- 0` (R184). -/
def execSysRun (s : State) : Answer := .next ({ s with run := true, phase := 0 }.ret {})

end Sys2Proof.Machine
end

