-- ==== Sys2Proof/Machine/Dispatch.lean ====
section
/-! DEFINITION. One arm per command: what CL does when it executes it. Whether the port accepts the command in the current mode
is decided before (`Machine/Sequencer.lean`). -/

namespace Sys2Proof.Machine

open Sys2Proof

def exec (i : Instr) (s : State) : Host.Outcome State Fault Refusal :=
  match i with
  | .sysNop => Sys2Proof.Machine.execSysNop s
  | .sysRun => Sys2Proof.Machine.execSysRun s
  | .rbPush b => Sys2Proof.Machine.execRbPush b s
  | .rbPop => Sys2Proof.Machine.execRbPop s
  | .rbPushB bytes => Sys2Proof.Machine.execRbPushB bytes s
  | .rbPushBS bytes => Sys2Proof.Machine.execRbPushBS bytes s
  | .dbSample => Sys2Proof.Machine.execDbSample s
  | .dbEdge => Sys2Proof.Machine.execDbEdge s
  | .segEnc d => Sys2Proof.Machine.execSegEnc d s
  | .segShow d => Sys2Proof.Machine.execSegShow d s
  | .segPage => Sys2Proof.Machine.execSegPage s
  | .slAddr => Sys2Proof.Machine.execSlAddr s
  | .slEnq => Sys2Proof.Machine.execSlEnq s
  | .slDrain1 => Sys2Proof.Machine.execSlDrain1 s
  | .slLine => Sys2Proof.Machine.execSlLine s
  | .pgStep => Sys2Proof.Machine.execPgStep s
  | .egXfer => Sys2Proof.Machine.execEgXfer s

end Sys2Proof.Machine
end

