-- ==== Sys2Proof/Machine/Engine.lean ====
section
/-! DEFINITION. The display engine's three moves (`43_scanline_pipeline.md` R162 to R164). A move that is not enabled changes
nothing. The engine has no other move (R166). -/

namespace Sys2Proof.Machine

open Sys2Proof

/-- `DE_START` (R162): enabled when `de_started` = 0 and `valid` holds something; removes nothing. -/
def deStart (s : State) : State :=
  if !s.deStarted && !s.valid.isEmpty then { s with deStarted := true } else s

/-- `DE_TAKE` (R163): enabled when `de_started` = 1 and `valid` holds something. -/
def deTake (s : State) : State :=
  match s.valid with
  | [] => s
  | a :: rest => if s.deStarted then { s with valid := rest, deHeld := s.deHeld ++ [a] } else s

/-- `DE_RET` (R164): enabled when the engine holds an address and `free` has room; the address returned is the one the
choice names, modulo their number, and that one occurrence is removed (U7; log 15). -/
def deRet (choice : Nat) (s : State) : State :=
  match s.deHeld[choice % s.deHeld.length]? with
  | none => s
  | some a =>
    if s.freeFull then s
    else { s with deHeld := s.deHeld.eraseIdx (choice % s.deHeld.length), free := s.free ++ [a] }

end Sys2Proof.Machine
end

