-- ==== Sys2Proof/Machine/Sequencer.lean ====
section
/-! DEFINITION. How CL comes to execute a command: from the command port (`30_encoding.md` R92) or from the loop sequencer
(`44_control_loop.md` R185, R186), and what each scheduled move does. -/

namespace Sys2Proof.Machine

open Sys2Proof

/-! ### The loop sequencer -/

/-- `LOOP_ROM` (R185). -/
def loopRom : List Word := [0x2000, 0x2100, 0x5000, 0x6000, 0x4000, 0x4100, 0x4200, 0x4300]

/-- The command of a phase: the ROM's word, decoded (R186: a step executes `LOOP_ROM[phase]`). Every word of the ROM is
one whole command, so the other branch is never taken. -/
def loopInstr (phase : BitVec 3) : Instr :=
  match decode [loopRom.getD phase.toNat 0x0000] with
  | .ok (i, _) => i
  | .error _ => .sysNop

/-- Whether the command just executed returned `res.ok` = 1. -/
def State.lastOk (t : State) : Bool :=
  match t.out.res with
  | some r => r.ok
  | none => false

/-- The phase after the command of `phase` led to `t` (R186): hold at 5, repeat at 6, else one further, wrapping. -/
def nextPhase (phase : BitVec 3) (t : State) : BitVec 3 :=
  if phase = 5 then if t.held then 5 else 6
  else if phase = 6 then if t.lastOk then 6 else 7
  else phase + 1

/-- After a sequencer step the position moves on (R186). -/
def State.advance (phase : BitVec 3) (t : State) : State := { t with phase := nextPhase phase t }

/-- An answer with its next state changed. -/
def mapNext (f : State → State) : Answer → Answer
  | .next t => .next (f t)
  | .fault r => .fault r
  | .refused r => .refused r

/-- CL goes on by itself: with `run` = 1 the sequencer's step; with `run` = 0 another try of an `SL_ENQ` that CL is
inside of, and nothing when there is none (R186, `43_scanline_pipeline.md` R153). -/
def clStep (s : State) : Answer :=
  if s.run then mapNext (State.advance s.phase) (exec (loopInstr s.phase) s)
  else if s.held then exec .slEnq s
  else .next s

/-! ### The command port -/

/-- CL takes the command at the port. While CL is held none is taken; a command that is illegal in itself or in this mode
is taken and refused in place; any other is executed (`30_encoding.md` R86, R91, R92). -/
def hostStep (s : State) : Answer :=
  if s.cmdReady then
    match fetch s.cmdIn with
    | .nothing => .next s
    | .illegal _ rest => .next { s with cmdIn := rest }.refuseCommand
    | .command i rest =>
      if s.accepts i then exec i { s with cmdIn := rest } else .next { s with cmdIn := rest }.refuseCommand
  else .next s

/-! ### The scheduled moves -/

/-- With no move scheduled the environment is quiet: the ports keep their levels and the engine does nothing. CL takes the
command that HOST presents, if it can, else it goes on by itself (log 8). -/
def quietStep (s : State) : Answer :=
  match s.cmdReady, fetch s.cmdIn with
  | true, .illegal _ _ => hostStep s
  | true, .command _ _ => hostStep s
  | _, _ => clStep s

/-- What one scheduled move does (`00_scope.md` R13). -/
def moveStep (m : Move) (s : State) : Answer :=
  match m with
  | .host i => hostStep (s.latch i)
  | .cl i => clStep (s.latch i)
  | .deStart => .next (deStart s)
  | .deTake => .next (deTake s)
  | .deRet choice => .next (deRet choice s)
  | .rst contents => .next (s.applyReset contents)

/-- One step of a machine whose configuration is sound: the next move of the schedule, or the quiet environment's. -/
def scheduledStep (s : State) : Answer :=
  match s.sched with
  | [] => quietStep s.quiet
  | m :: rest => moveStep m { s.quiet with sched := rest }

/-- The words of the instruction `w` before those already at the port, and a schedule whose next move takes a command
there; host mode and not held, so that any command is accepted (`30_encoding.md` R92; log 19). -/
def State.placeCommand (s : State) (ws : List Word) : State :=
  { s with run := false, held := false, cmdIn := ws ++ s.cmdIn, sched := .host s.inp :: s.sched }

end Sys2Proof.Machine
end

