-- ==== Sys2Proof/Machine/Step.lean ====
section
/-! DEFINITION. One step of the machine (`00_scope.md` R13). -/

namespace Sys2Proof.Machine

open Sys2Proof

/-- One step: a configuration that breaks `00_scope.md` R8 is refused, else the next move takes place. -/
def step (s : State) : Host.Outcome State Fault Refusal :=
  if configOk s.cfg then scheduledStep s else .refused .badConfiguration

/-- `s` with the instruction whose bits are `w` waiting at the command port, taken and run by the very next step
(log 19). -/
def State.withFetchWord (s : State) (nbits w : Nat) : State := s.placeCommand (tablePacket nbits w)

end Sys2Proof.Machine
end

