-- ==== Sys2Proof/Machine/Pseudo.lean ====
section
/-! DEFINITION. The pseudo-instructions and traces (`30_encoding.md` R89; `44_control_loop.md` R188; `70_reset_and_hazards.md`
R223). They are sequences of commands and of scheduled moves; the block itself knows only the commands. -/

namespace Sys2Proof.Machine

open Sys2Proof

/-- The pseudo-instructions of R89. -/
inductive Pseudo where
  /-- `SL_DRAIN`: the drain loop (`43_scanline_pipeline.md` R156). -/
  | slDrain
  /-- `SL_ITER`: the pipeline iteration (`43_scanline_pipeline.md` R150). -/
  | slIter
  /-- `ITER`: one control-loop iteration (`44_control_loop.md` R188). -/
  | iter
  /-- `RB_PUTS "text"`, of any length: R82 splits what one packet may not carry. -/
  | rbPuts (text : List Byte)
  /-- `BOOT` (`70_reset_and_hazards.md` R223). -/
  | boot
deriving DecidableEq, Repr

/-- The payloads of an input that one packet may not carry: 255 bytes each, and what is left in the last
(`30_encoding.md` R82). `fuel` bounds the number of payloads after the first; the input's length is enough. -/
def payloadsOf : Nat → List Byte → List (List Byte)
  | 0, bytes => [bytes]
  | fuel + 1, bytes => if bytes.length ≤ 255 then [bytes] else bytes.take 255 :: payloadsOf fuel (bytes.drop 255)

/-- A bulk input as one packet, or as several where it is longer than 255 bytes (R82). -/
def bulkPackets (stop : Bool) (bytes : List Byte) : List Instr := (payloadsOf bytes.length bytes).map (bulkInstr stop)

/-- The commands a pseudo-instruction stands for. `drains` is the number of try-dequeues of the drain loop that succeed
before the one that finds `free` empty (R89: "until one returns `res.ok = 0`"). -/
def Pseudo.expand (cfg : Config) (drains : Nat) : Pseudo → List Instr
  | .slDrain => List.replicate (drains + 1) .slDrain1
  | .slIter => [.slAddr, .slEnq] ++ List.replicate (drains + 1) .slDrain1 ++ [.slLine]
  | .iter =>
    [.dbSample, .dbEdge, .pgStep, .egXfer, .slAddr, .slEnq] ++ List.replicate (drains + 1) .slDrain1 ++ [.slLine]
  | .rbPuts text => bulkPackets true (text ++ [cfg.sentinel])
  | .boot => [.segPage, .rbPushBS cfg.identString, .sysRun]

/-- Commands one after the other with no step of another agent between them. CL goes no further while a command holds
(`43_scanline_pipeline.md` R153). -/
def execAll : List Instr → State → Answer
  | [], s => .next s
  | i :: is, s =>
    match exec i s with
    | .next t => if t.held then .next t else execAll is t
    | .fault r => .fault r
    | .refused r => .refused r

/-- The packets of one bulk input, in order. The issuer presents the next one only after `res.count = LEN`, so that nothing
is attempted after a packet that stopped early (`30_encoding.md` R82, `40_ring_buffer.md` R103). Log 13 says what the issuer
cannot see with `SENTINEL_ENQUEUED`. -/
def issueBulk (stop : Bool) : List (List Byte) → State → Answer
  | [], s => .next s
  | p :: ps, s =>
    match exec (bulkInstr stop p) s with
    | .next t => if t.held = false ∧ (t.out.res.getD {}).count.toNat = p.length then issueBulk stop ps t else .next t
    | .fault r => .fault r
    | .refused r => .refused r

/-- A pseudo-instruction executed with no engine step in between, so that the drain loop finds exactly what `free` holds
(`43_scanline_pipeline.md` R156; log 24). `RB_PUTS` of a text that needs several packets is issued packet by packet. -/
def execPseudo : Pseudo → State → Answer
  | .rbPuts text, s => issueBulk true (payloadsOf (text ++ [s.cfg.sentinel]).length (text ++ [s.cfg.sentinel])) s
  | .slDrain, s => execAll (Pseudo.slDrain.expand s.cfg s.free.length) s
  | .slIter, s => execAll (Pseudo.slIter.expand s.cfg s.free.length) s
  | .iter, s => execAll (Pseudo.iter.expand s.cfg s.free.length) s
  | .boot, s => execAll (Pseudo.boot.expand s.cfg s.free.length) s

/-- A number of executions of one pseudo-instruction. -/
def repeatPseudo (p : Pseudo) : Nat → State → Answer
  | 0, s => .next s
  | k + 1, s =>
    match execPseudo p s with
    | .next t => if t.held then .next t else repeatPseudo p k t
    | .fault r => .fault r
    | .refused r => .refused r

/-- One command executed a number of times. -/
def repeatExec (i : Instr) (k : Nat) (s : State) : Answer := execAll (List.replicate k i) s

/-- One line of a trace: a command that HOST presents with the inputs of its step, or a step of another kind (R89: a line
starting with `@` is an environment event). -/
inductive TraceLine where
  | command (i : Instr) (inp : Inputs)
  | event (m : Move)
deriving DecidableEq, Repr

/-- The words a line puts on the command port. -/
def TraceLine.words : TraceLine → List Word
  | .command i _ => encode i
  | .event _ => []

/-- The move a line schedules. -/
def TraceLine.move : TraceLine → Move
  | .command _ inp => .host inp
  | .event m => m

/-- `s` with a trace still to run: its commands at the port and its moves in the schedule. -/
def State.withTrace (s : State) (t : List TraceLine) : State :=
  { s with cmdIn := s.cmdIn ++ t.flatMap TraceLine.words, sched := s.sched ++ t.map TraceLine.move }

end Sys2Proof.Machine
end

