-- ==== Sys2Proof/Safety.lean ====
section
/-! DEFINITION. What counts as a safe state of the block, and the observations claims about sequences of commands are stated in:
the invariant of the registers and queues, the hand-off of the scanline addresses, the indicator, the bytes that enter and
leave the ring buffer, and the debounced edges. -/

namespace Sys2Proof.Machine

open Sys2Proof

/-- Every address of a queue fits `ADDR_W` bits. -/
def addrsFit (w : Nat) (q : List Nat) : Prop := ∀ a ∈ q, a < 2 ^ w

/-- The invariant of the machine: the parameters meet `00_scope.md` R8, the ring array keeps its canonical form, and every
register and queue is within the range `10_state.md` gives it. -/
structure State.Inv (s : State) : Prop where
  /-- R8. -/
  config : configOk s.cfg = true
  /-- The ring array is in canonical form (log 5). -/
  bufWf : Memory.wf s.ring.buf = true
  /-- R21: the ring array has slots 0 to RB_SIZE-1. -/
  bufWithin : memWithin s.cfg.rbSize s.ring.buf = true
  /-- R22, R23: `head` and `tail` are slots. -/
  ringRange : s.ring.inRange s.cfg.rbSize = true
  /-- R29: `t_last` fits `TIME_W` bits. -/
  tLastFits : s.tLast < 2 ^ s.cfg.timeW
  /-- R44: `now` fits `TIME_W` bits. -/
  nowFits : s.inp.now < 2 ^ s.cfg.timeW
  /-- R31: `page` is in [0, PAGE_NUM). -/
  pageRange : s.page < s.cfg.pageNum
  /-- R32: `line` is in [0, FRAME_HEIGHT). -/
  lineRange : s.line < s.cfg.frameHeight
  /-- R33: `sl_addr` fits `ADDR_W` bits. -/
  slAddrFits : s.slAddr < 2 ^ s.cfg.addrW
  /-- R34: the valid queue holds addresses of `ADDR_W` bits. -/
  validFits : addrsFit s.cfg.addrW s.valid
  /-- R34: at most `VALID_DEPTH` of them. -/
  validDepth : s.valid.length ≤ s.cfg.validDepth
  /-- R35: the free queue holds addresses of `ADDR_W` bits. -/
  freeFits : addrsFit s.cfg.addrW s.free
  /-- R35: at most `FREE_DEPTH` of them. -/
  freeDepth : s.free.length ≤ s.cfg.freeDepth
  /-- R41: so does the engine. -/
  deHeldFits : addrsFit s.cfg.addrW s.deHeld
  /-- R42: so does the history. -/
  validLogFits : addrsFit s.cfg.addrW s.validLog
  /-- R92, R186: the sequencer is held at phase 5 and nowhere else. -/
  heldPhase : s.run = true → s.held = true → s.phase = 5
  /-- R40, R166: before `DE_START` the engine has taken nothing and returned nothing. -/
  gated : s.deStarted = false → s.deHeld = [] ∧ s.free = []

/-- The hand-off of the scanline addresses (`43_scanline_pipeline.md` R158, R164, R166): what `valid` holds is the end of
what was enqueued, in order, and every address the engine holds or has returned was enqueued before, no more often than it
was. -/
def State.HandoffAccounted (s : State) : Prop :=
  ∃ before, s.validLog = before ++ s.valid ∧ ∀ a, s.deHeld.count a + s.free.count a ≤ before.count a

/-- The indicator shows the page (`42_seven_segment.md` R143). -/
def State.IndicatorShowsPage (s : State) : Prop := s.segOut = seg s.cfg (digitOf s.page)

/-- While the sequencer is past `SL_ADDR` in its iteration, the latch holds the address of the current page and line
(`43_scanline_pipeline.md` R157). -/
def State.LatchIsCurrent (s : State) : Prop :=
  s.run = true → (s.phase = 5 ∨ s.phase = 6 ∨ s.phase = 7) → s.slAddr = s.scanWord

/-- The next scheduled step is not a reset. -/
def State.noReset (s : State) : Bool :=
  match s.sched with
  | .rst _ :: _ => false
  | _ => true

/-- The live bytes of the ring buffer, oldest first (`10_state.md` R24). -/
def State.live (s : State) : List Byte := s.ring.live s.cfg.rbSize

/-- The result of the last step, all 0 where there is none. -/
def State.result (s : State) : Result := s.out.res.getD {}

/-- The bytes a command put into the ring buffer, by its result (`40_ring_buffer.md` R101, R104, R105). -/
def acceptedBytes (r : Result) : Instr → List Byte
  | .rbPush b => if r.ok then [b] else []
  | .rbPushB bytes => bytes.take r.count.toNat
  | .rbPushBS bytes => bytes.take r.count.toNat
  | .sysNop | .sysRun | .rbPop | .dbSample | .dbEdge | .segEnc _ | .segShow _ | .segPage => []
  | .slAddr | .slEnq | .slDrain1 | .slLine | .pgStep | .egXfer => []

/-- The byte a command took out of the ring buffer, by its result (`40_ring_buffer.md` R102, `44_control_loop.md` R182). -/
def poppedBytes (r : Result) : Instr → List Byte
  | .rbPop | .egXfer => if r.ok then [r.data] else []
  | .rbPush _ | .rbPushB _ | .rbPushBS _ => []
  | .sysNop | .sysRun | .dbSample | .dbEdge | .segEnc _ | .segShow _ | .segPage => []
  | .slAddr | .slEnq | .slDrain1 | .slLine | .pgStep => []

/-- Commands one after the other: the bytes that entered the ring buffer, the bytes that left it, and the state after
them; none where a command stops. -/
def ringTraffic : List Instr → State → Option (List Byte × List Byte × State)
  | [], s => some ([], [], s)
  | i :: is, s =>
    match exec i s with
    | .next t =>
      match ringTraffic is t with
      | some (acc, pop, u) => some (acceptedBytes t.result i ++ acc, poppedBytes t.result i ++ pop, u)
      | none => none
    | .fault _ => none
    | .refused _ => none

/-- Each `DB_SAMPLE` followed by one `DB_EDGE`, with these inputs: the number of edge results, the number of changes of
`stable` from 0 to 1, and the state after them (`41_debounce.md` R125 (c)); none where a command stops. -/
def debounceTraffic : List Inputs → State → Option (Nat × Nat × State)
  | [], s => some (0, 0, s)
  | i :: is, s =>
    match exec .dbSample { s with inp := i } with
    | .next t =>
      match exec .dbEdge t with
      | .next u =>
        match debounceTraffic is u with
        | some (edges, rises, v) =>
          some ((if u.result.edge then edges + 1 else edges), (if !s.stable && t.stable then rises + 1 else rises), v)
        | none => none
      | .fault _ => none
      | .refused _ => none
    | .fault _ => none
    | .refused _ => none

end Sys2Proof.Machine
end

