-- ==== Sys2Proof/Certificates/Slice0/Obligations.lean ====
section
/-! DEFINITION. The statements for the provers, file by file of the spec. Each docstring names the rules it formalises. -/

open Sys2Proof Sys2Proof.Machine

/-! ### Encoding (`30_encoding.md`) -/

/-- R84, V-RB-6, V-SEG, S1: words written out from the table decode to the command they stand for, or are refused for the
reason R86 gives. -/
def Obligations.DecodesWrittenOutWords : Prop :=
  decode [0x0000] = .ok (.sysNop, []) ∧ decode [0x0100] = .ok (.sysRun, []) ∧
  decode [0x1061] = .ok (.rbPush 0x61, []) ∧ decode [0x1100] = .ok (.rbPop, []) ∧
  decode [0x1202, 0x0041, 0x0042, 0x2000] = .ok (.rbPushB [0x41, 0x42], [0x2000]) ∧
  decode [0x1302, 0x003E, 0x0000] = .ok (.rbPushBS [0x3E, 0x00], []) ∧
  decode [0x2000] = .ok (.dbSample, []) ∧ decode [0x2100] = .ok (.dbEdge, []) ∧
  decode [0x300A] = .ok (.segEnc 10, []) ∧ decode [0x31C8] = .ok (.segShow 200, []) ∧
  decode [0x3200] = .ok (.segPage, []) ∧ decode [0x4000] = .ok (.slAddr, []) ∧
  decode [0x4100] = .ok (.slEnq, []) ∧ decode [0x4200] = .ok (.slDrain1, []) ∧
  decode [0x4300] = .ok (.slLine, []) ∧ decode [0x5000] = .ok (.pgStep, []) ∧
  decode [0x6000] = .ok (.egXfer, []) ∧
  decode [0x1101] = .error .nonzeroImmediate ∧ decode [0x1400] = .error .unassignedFunc ∧
  decode [0x7000] = .error .unassignedUnit ∧ decode [0x1202, 0x0141, 0x0042] = .error .payloadHighByte

/-- R82, R84, R85, R88: the encoding of every well-formed command, with any words after it, decodes to that command and
leaves those words. -/
def Obligations.DecodeOfEncode : Prop :=
  ∀ (i : Instr) (ws : List Word), WellFormed i → decode (encode i ++ ws) = .ok (i, ws)

/-- R84, R86, R87: each command has one encoding; the decoder accepts no other words. -/
def Obligations.EncodeOfDecode : Prop :=
  ∀ (ws : List Word) (i : Instr) (rest : List Word),
    decode ws = .ok (i, rest) → WellFormed i ∧ ws = encode i ++ rest

/-- R84: seventeen rows, of which no two match one word. -/
def Obligations.OpcodeRowsDoNotOverlap : Prop :=
  opcodeRows.length = 17 ∧
  opcodeRows.Pairwise fun r r' => ∀ w : Word, w &&& r.mask = r.mtch → w &&& r'.mask ≠ r'.mtch

/-- R86 (a) to (d): exactly the illegal words and packets are refused, each for its reason. -/
def Obligations.IllegalEncodingsClassified : Prop :=
  ∀ (w : Word) (ws : List Word),
    let unit := (unitOf w).toNat
    let func := (funcOf w).toNat
    let listed := [2, 4, 2, 3, 4, 1, 1].getD unit 0
    let hasImmediate := (unit, func) ∈ [(1, 0), (1, 2), (1, 3), (3, 0), (3, 1)]
    (decode (w :: ws) = .error .unassignedUnit ↔ 7 ≤ unit) ∧
    (decode (w :: ws) = .error .unassignedFunc ↔ unit < 7 ∧ listed ≤ func) ∧
    (decode (w :: ws) = .error .nonzeroImmediate ↔ unit < 7 ∧ func < listed ∧ ¬ hasImmediate ∧ immOf w ≠ 0) ∧
    (decode (w :: ws) = .error .payloadHighByte ↔
      unit = 1 ∧ (func = 2 ∨ func = 3) ∧ (immOf w).toNat ≤ ws.length ∧
        ∃ p ∈ ws.take (immOf w).toNat, highByteOf p ≠ 0)

/-! ### Steps of CL (`30_encoding.md` R91, R92; `44_control_loop.md` R185 to R187) -/

/-- R92, R187: a scheduled host command that decodes, at a port that is ready and in a mode that accepts it, is executed
with the inputs drawn for the step, its words taken from the port. That the inputs are latched in State is log 9; that the step
begins with no result and no strobe is log 12. -/
def Obligations.StepRunsHostCommand : Prop :=
  ∀ (s : State) (inp : Inputs) (rest : List Move) (i : Instr) (ws : List Word),
    configOk s.cfg = true → s.sched = .host inp :: rest → s.held = false →
    decode s.cmdIn = .ok (i, ws) → (s.run = true → i.isPush = true) →
    step s = exec i { s with
      sched := rest
      cmdIn := ws
      inp := { now := inp.now % 2 ^ s.cfg.timeW, btnRaw := inp.btnRaw, txReady := inp.txReady }
      out := { res := none, tx := none } }

/-- R186: while `run` = 1 CL's own step executes the ROM's command for the phase with the inputs of that moment, and the
phase holds at 5, repeats at 6, else goes on, wrapping; with `run` = 0 it does nothing. That the inputs are latched in State is
log 9; that the step begins with no result and no strobe is log 12. -/
def Obligations.StepRunsSequencer : Prop :=
  ∀ (s : State) (inp : Inputs) (rest : List Move),
    configOk s.cfg = true → s.sched = .cl inp :: rest → s.valid.length ≤ s.cfg.validDepth →
    let s' : State := { s with
      sched := rest
      inp := { now := inp.now % 2 ^ s.cfg.timeW, btnRaw := inp.btnRaw, txReady := inp.txReady }
      out := { res := none, tx := none } }
    (s.run = true →
      step s = match exec (loopInstr s.phase) s' with
        | .next t => .next { t with phase :=
            if s.phase = 5 then if s.valid.length = s.cfg.validDepth then 5 else 6
            else if s.phase = 6 then if s.free = [] then 7 else 6
            else s.phase + 1 }
        | .fault r => .fault r
        | .refused r => .refused r) ∧
    (s.run = false → s.held = false → step s = .next s')

/-- R185: the ROM's eight words, phase by phase, are the loop's commands. -/
def Obligations.LoopRomIsTheLoop : Prop :=
  loopRom = [0x2000, 0x2100, 0x5000, 0x6000, 0x4000, 0x4100, 0x4200, 0x4300] ∧
  (List.range 8).map (fun k => loopInstr (BitVec.ofNat 3 k)) =
    [.dbSample, .dbEdge, .pgStep, .egXfer, .slAddr, .slEnq, .slDrain1, .slLine]

/-- R86, R91, R92: an illegal command, in itself or because the sequencer runs, is taken from the port and changes no
register; its result has `illegal` = 1 and nothing else. That the model goes on with this result is its choice, log 10. -/
def Obligations.IllegalCommandRefusedInPlace : Prop :=
  ∀ (s : State) (inp : Inputs) (rest : List Move),
    configOk s.cfg = true → s.sched = .host inp :: rest → s.held = false →
    let refusedAt := fun (ws : List Word) => ({ s with
      sched := rest
      cmdIn := ws
      inp := { now := inp.now % 2 ^ s.cfg.timeW, btnRaw := inp.btnRaw, txReady := inp.txReady }
      out := { res := some { illegal := true }, tx := none } } : State)
    (∀ w ws why, s.cmdIn = w :: ws → decode s.cmdIn = .error why → why ≠ .incompletePacket →
      step s = .next (refusedAt (s.cmdIn.drop (packetLength w)))) ∧
    (∀ i ws, decode s.cmdIn = .ok (i, ws) → s.run = true → i.isPush = false → step s = .next (refusedAt ws))

/-- R92, R153, R187: while CL is held inside `SL_ENQ` no host command is accepted, whatever is at the port and whatever
`run` is (the bit `held` is log 11). That the step latches its inputs is log 9; that it shows no result and no strobe is
log 12. -/
def Obligations.HeldPortAcceptsNothing : Prop :=
  ∀ (s : State) (inp : Inputs) (rest : List Move),
    configOk s.cfg = true → s.sched = .host inp :: rest → s.held = true →
    step s = .next { s with
      sched := rest
      inp := { now := inp.now % 2 ^ s.cfg.timeW, btnRaw := inp.btnRaw, txReady := inp.txReady }
      out := { res := none, tx := none } }

/-- R183, R184: what the two SYS commands do, and that the port accepts them with `run` = 0 only. -/
def Obligations.SysCommands : Prop :=
  encode .sysNop = [0x0000] ∧ encode .sysRun = [0x0100] ∧
  ∀ s : State,
    exec .sysNop s = .next { s with out := { res := some {}, tx := none } } ∧
    exec .sysRun s = .next { s with run := true, phase := 0, out := { res := some {}, tx := none } } ∧
    (s.accepts .sysNop = true ↔ s.run = false) ∧ (s.accepts .sysRun = true ↔ s.run = false)

/-! ### The ring buffer (`40_ring_buffer.md`) -/

/-- R101: a push stores at `head` and advances it, unless the buffer is full, when nothing changes. -/
def Obligations.PushStoresAtHead : Prop :=
  ∀ (b : Byte) (s : State),
    s.ring.head < s.cfg.rbSize → s.ring.tail < s.cfg.rbSize → Memory.wf s.ring.buf = true →
    encode (.rbPush b) = [(0x10 : Byte) ++ b] ∧
    ((s.ring.head + 1) % s.cfg.rbSize = s.ring.tail →
      exec (.rbPush b) s = .next { s with out := { res := some { ok := false }, tx := none } }) ∧
    ((s.ring.head + 1) % s.cfg.rbSize ≠ s.ring.tail →
      ∃ buf, exec (.rbPush b) s = .next { s with
          ring := { buf := buf, head := (s.ring.head + 1) % s.cfg.rbSize, tail := s.ring.tail }
          out := { res := some { ok := true }, tx := none } } ∧
        memRead buf s.ring.head = b ∧ ∀ a, a ≠ s.ring.head → memRead buf a = memRead s.ring.buf a)

/-- R102: a pop answers the byte at `tail` and advances it, unless the buffer is empty, when it answers `POP_DEFAULT` and
nothing changes. -/
def Obligations.PopTakesAtTail : Prop :=
  encode .rbPop = [0x1100] ∧
  ∀ s : State, s.ring.head < s.cfg.rbSize → s.ring.tail < s.cfg.rbSize →
    (s.ring.head = s.ring.tail →
      exec .rbPop s = .next { s with out := { res := some { ok := false, data := s.cfg.popDefault }, tx := none } }) ∧
    (s.ring.head ≠ s.ring.tail →
      exec .rbPop s = .next { s with
        ring := { s.ring with tail := (s.ring.tail + 1) % s.cfg.rbSize }
        out := { res := some { ok := true, data := memRead s.ring.buf s.ring.tail }, tx := none } })

/-- R101, R103, R104: `RB_PUSHB` enqueues the first `min(LEN, space)` bytes in order, answers their number and drops the rest.
That the count is `min(LEN, space)` is an inference the spec marks as its own in R104 ("derived: from rule R101 and rule
R103"). -/
def Obligations.BulkPushEnqueuesWhatFits : Prop :=
  ∀ (bytes : List Byte) (s : State), bytes.length ≤ 255 →
    s.ring.head < s.cfg.rbSize → s.ring.tail < s.cfg.rbSize → Memory.wf s.ring.buf = true →
    let n := s.cfg.rbSize
    let count := min bytes.length (n - 1 - (s.ring.head + n - s.ring.tail) % n)
    encode (.rbPushB bytes) = ((0x12 : Byte) ++ BitVec.ofNat 8 bytes.length) :: bytes.map ((0x00 : Byte) ++ ·) ∧
    ∃ buf, exec (.rbPushB bytes) s = .next { s with
        ring := { buf := buf, head := (s.ring.head + count) % n, tail := s.ring.tail }
        out := { res := some { count := BitVec.ofNat 8 count }, tx := none } } ∧
      (∀ k b, bytes[k]? = some b → k < count → memRead buf ((s.ring.head + k) % n) = b) ∧
      ∀ a, (∀ k, k < count → a ≠ (s.ring.head + k) % n) → memRead buf a = memRead s.ring.buf a

/-- R101, R103, R105, with the sentinel not enqueued (D10): `RB_PUSHBS` does the same with the bytes before the first
sentinel. That the count is `min(k, space)` is an inference the spec marks as its own in R105 ("derived: from rule R101 and
rule R103"). -/
def Obligations.BulkPushStopsBeforeSentinel : Prop :=
  ∀ (bytes : List Byte) (s : State), bytes.length ≤ 255 → s.cfg.sentinelEnqueued = false →
    s.ring.head < s.cfg.rbSize → s.ring.tail < s.cfg.rbSize → Memory.wf s.ring.buf = true →
    let n := s.cfg.rbSize
    let text := bytes.takeWhile (fun b => b != s.cfg.sentinel)
    let count := min text.length (n - 1 - (s.ring.head + n - s.ring.tail) % n)
    encode (.rbPushBS bytes) = ((0x13 : Byte) ++ BitVec.ofNat 8 bytes.length) :: bytes.map ((0x00 : Byte) ++ ·) ∧
    ∃ buf, exec (.rbPushBS bytes) s = .next { s with
        ring := { buf := buf, head := (s.ring.head + count) % n, tail := s.ring.tail }
        out := { res := some { count := BitVec.ofNat 8 count }, tx := none } } ∧
      (∀ k b, text[k]? = some b → k < count → memRead buf ((s.ring.head + k) % n) = b) ∧
      ∀ a, (∀ k, k < count → a ≠ (s.ring.head + k) % n) → memRead buf a = memRead s.ring.buf a

/-- With `SENTINEL_ENQUEUED` (U2), in the model's reading of it, log 13: the sentinel that stops the push is pushed and
counted like the bytes before it. -/
def Obligations.BulkPushMayEnqueueSentinel : Prop :=
  ∀ (bytes : List Byte) (s : State), bytes.length ≤ 255 → s.cfg.sentinelEnqueued = true →
    s.ring.head < s.cfg.rbSize → s.ring.tail < s.cfg.rbSize → Memory.wf s.ring.buf = true →
    let n := s.cfg.rbSize
    let text := bytes.take ((bytes.takeWhile (fun b => b != s.cfg.sentinel)).length + 1)
    let count := min text.length (n - 1 - (s.ring.head + n - s.ring.tail) % n)
    ∃ buf, exec (.rbPushBS bytes) s = .next { s with
        ring := { buf := buf, head := (s.ring.head + count) % n, tail := s.ring.tail }
        out := { res := some { count := BitVec.ofNat 8 count }, tx := none } } ∧
      (∀ k b, text[k]? = some b → k < count → memRead buf ((s.ring.head + k) % n) = b) ∧
      ∀ a, (∀ k, k < count → a ≠ (s.ring.head + k) % n) → memRead buf a = memRead s.ring.buf a

/-- R106: over every sequence of well-formed commands, the bytes that leave the ring buffer, followed by those still live,
are the bytes that were live at the start followed by those accepted, in order; and never more than `RB_SIZE - 1` are
live. -/
def Obligations.RingTrafficIsFifo : Prop :=
  ∀ (is : List Instr) (s : State), (∀ i ∈ is, WellFormed i) →
    s.ring.inRange s.cfg.rbSize = true → Memory.wf s.ring.buf = true →
    ∃ acc pop t, ringTraffic is s = some (acc, pop, t) ∧ pop ++ t.live = s.live ++ acc ∧
      t.live.length ≤ s.cfg.rbSize - 1

/-- R106 (c), (d): a pop fails exactly when nothing is live, a push exactly when `RB_SIZE - 1` bytes are. -/
def Obligations.FailuresSayEmptyAndFull : Prop :=
  ∀ (b : Byte) (s t : State), s.ring.inRange s.cfg.rbSize = true →
    (exec .rbPop s = .next t → (t.result.ok = false ↔ s.live.length = 0)) ∧
    (exec (.rbPush b) s = .next t → (t.result.ok = false ↔ s.live.length = s.cfg.rbSize - 1))

/-- R24, R25: the status outputs are the two ends of the live count, which is at most `RB_SIZE - 1`. -/
def Obligations.StatusOutputsFollowCount : Prop :=
  ∀ s : State, s.ring.head < s.cfg.rbSize → s.ring.tail < s.cfg.rbSize →
    let n := (s.ring.head + s.cfg.rbSize - s.ring.tail) % s.cfg.rbSize
    n ≤ s.cfg.rbSize - 1 ∧ (s.rbEmpty = true ↔ n = 0) ∧ (s.rbFull = true ↔ n = s.cfg.rbSize - 1)

/-- R21: no command's result, no output and no register depends on a slot outside the live range. -/
def Obligations.DeadSlotsAreNotObservable : Prop :=
  ∀ (i : Instr) (s t : State) (buf : List Host.Cell),
    s.ring.inRange s.cfg.rbSize = true → Memory.wf s.ring.buf = true → Memory.wf buf = true →
    ({ s.ring with buf := buf } : Ring).live s.cfg.rbSize = s.live →
    exec i s = .next t →
    ∃ t', exec i { s with ring := { s.ring with buf := buf } } = .next t' ∧
      t' = { t with ring := { t.ring with buf := t'.ring.buf } } ∧ t'.live = t.live

/-! ### The debounce filter (`41_debounce.md`) -/

/-- R121, R122, R123: the time gate, the shift of the sample register and the consensus. -/
def Obligations.SampleStep : Prop :=
  encode .dbSample = [0x2000] ∧
  ∀ s : State, s.inp.now < 2 ^ s.cfg.timeW → s.tLast < 2 ^ s.cfg.timeW →
    let elapsedTicks := ((s.inp.now : Int) - s.tLast) % (2 ^ s.cfg.timeW : Nat)
    let x := if s.cfg.btnActiveLow then !s.inp.btnRaw else s.inp.btnRaw
    ((10 * s.cfg.ticksPerMs : Nat) ≤ elapsedTicks →
      exec .dbSample s = .next { s with
        tLast := s.inp.now
        s0 := x
        s1 := s.s0
        s2 := s.s1
        stable :=
          if x = true ∧ s.s0 = true ∧ s.s1 = true then true
          else if x = false ∧ s.s0 = false ∧ s.s1 = false then false else s.stable
        out := { res := some {}, tx := none } }) ∧
    (elapsedTicks < (10 * s.cfg.ticksPerMs : Nat) →
      exec .dbSample s = .next { s with out := { res := some {}, tx := none } })

/-- R124: the rising edge is signalled when `stable` rose since the last edge step, `prev` follows `stable`, and a second
edge step with no sample between gives 0. -/
def Obligations.EdgeStep : Prop :=
  encode .dbEdge = [0x2100] ∧
  ∀ s : State,
    exec .dbEdge s = .next { s with
      edge := !s.prev && s.stable
      prev := s.stable
      out := { res := some { edge := !s.prev && s.stable }, tx := none } } ∧
    ∀ t u, exec .dbEdge s = .next t → exec .dbEdge t = .next u → u.edge = false ∧ u.result.edge = false

/-- R125 (a): `stable` flips only at a gated sample after which all three samples agree with it. -/
def Obligations.StableFlipsOnlyUnanimously : Prop :=
  ∀ (i : Instr) (s t : State), exec i s = .next t → t.stable ≠ s.stable →
    i = .dbSample ∧ s.gatePasses = true ∧ t.s0 = t.stable ∧ t.s1 = t.stable ∧ t.s2 = t.stable

/-- R125 (b): after three gated samples in a row of one value, `stable` has that value. -/
def Obligations.ThreeAgreeingSamplesDecide : Prop :=
  ∀ (v : Bool) (a b c : Inputs) (s t u w : State),
    exec .dbSample { s with inp := a } = .next t → exec .dbSample { t with inp := b } = .next u →
    exec .dbSample { u with inp := c } = .next w →
    ({ s with inp := a } : State).gatePasses = true → ({ t with inp := b } : State).gatePasses = true →
    ({ u with inp := c } : State).gatePasses = true →
    logicalSample s.cfg.btnActiveLow a.btnRaw = v → logicalSample s.cfg.btnActiveLow b.btnRaw = v →
    logicalSample s.cfg.btnActiveLow c.btnRaw = v → w.stable = v

/-- R125 (c): from `prev` = `stable`, with every sample followed by an edge step, there are as many edges as rises of
`stable`, whatever the inputs. -/
def Obligations.OneEdgePerRise : Prop :=
  ∀ (is : List Inputs) (s : State), s.prev = s.stable →
    ∃ k t, debounceTraffic is s = some (k, k, t) ∧ t.prev = t.stable

/-! ### The seven-segment encoder (`42_seven_segment.md`) -/

/-- R138, R139: `SEG_ENC` answers the table's byte for digits 0 to 9 and the blank pattern for every other byte, and writes
nothing. -/
def Obligations.EncoderIsTheTable : Prop :=
  ∀ (d : Byte) (s : State), configOk s.cfg = true →
    encode (.segEnc d) = [(0x30 : Byte) ++ d] ∧
    (d.toNat ≤ 9 → ∃ v, s.cfg.segTable[d.toNat]? = some v ∧
      exec (.segEnc d) s = .next { s with out := { res := some { data := v }, tx := none } }) ∧
    (10 ≤ d.toNat → exec (.segEnc d) s = .next { s with out := { res := some { data := 0xFF }, tx := none } })

/-- R138, R140, R141: `SEG_SHOW d` drives the lines with the encoding of `d` and answers it; `SEG_PAGE` does the same with
the digit `(page + 1) mod 256`. -/
def Obligations.ShowDrivesTheLines : Prop :=
  ∀ (d : Byte) (s : State),
    let pattern := fun n : Nat => if n ≤ 9 then s.cfg.segTable.getD n 0xFF else 0xFF
    encode (.segShow d) = [(0x31 : Byte) ++ d] ∧ encode .segPage = [0x3200] ∧
    exec (.segShow d) s = .next { s with
      segOut := pattern d.toNat, out := { res := some { data := pattern d.toNat }, tx := none } } ∧
    exec .segPage s = .next { s with
      segOut := pattern ((s.page + 1) % 256)
      out := { res := some { data := pattern ((s.page + 1) % 256) }, tx := none } }

/-- R136, R137, R138: the decimal point's line, bit 7, is off in every pattern. -/
def Obligations.DecimalPointAlwaysOff : Prop :=
  ∀ (c : Config) (d : Byte), configOk c = true → (seg c d).getLsbD 7 = true

/-- R143: while the sequencer runs, every step but a reset keeps the indicator showing the page. -/
def Obligations.IndicatorKeepsShowingPage : Prop :=
  ∀ s t : State, s.run = true → s.IndicatorShowsPage → s.noReset = true → step s = .next t →
    t.run = true ∧ t.IndicatorShowsPage

/-! ### The scanline pipeline (`43_scanline_pipeline.md`) -/

/-- R151, R152: `SL_ADDR` latches and answers the exact address of the page and line (R151 reads `ADDR_SCALE >= 1`). -/
def Obligations.ScanAddressLatched : Prop :=
  encode .slAddr = [0x4000] ∧
  ∀ s : State, configOk s.cfg = true → 1 ≤ s.cfg.addrScale → s.page < s.cfg.pageNum → s.line < s.cfg.frameHeight →
    let a := s.cfg.imageBase + s.cfg.addrScale * ((s.page * s.cfg.frameHeight + s.line) * s.cfg.frameWidth)
    exec .slAddr s = .next { s with slAddr := a, out := { res := some { addr := a }, tx := none } }

/-- R151: `ScanAddr` is injective and strictly increasing in `p * FRAME_HEIGHT + l`, and stays inside the store. -/
def Obligations.ScanAddrIsMonotone : Prop :=
  ∀ (c : Config) (p l p' l' : Nat), configOk c = true → 1 ≤ c.addrScale →
    p < c.pageNum → l < c.frameHeight → p' < c.pageNum → l' < c.frameHeight →
    (scanAddr c p l = scanAddr c p' l' → p = p' ∧ l = l') ∧
    (p * c.frameHeight + l < p' * c.frameHeight + l' → scanAddr c p l < scanAddr c p' l') ∧
    c.imageBase ≤ scanAddr c p l ∧
    scanAddr c p l + c.addrScale * c.frameWidth ≤
      c.imageBase + c.addrScale * (c.pageNum * c.frameHeight * c.frameWidth)

/-- R153: `SL_ENQ` appends the latched address while there is room; while there is none it holds: no register changes, no
result is returned, and CL stays inside it (the bit `held`, log 11). -/
def Obligations.EnqueueAppendsOrHolds : Prop :=
  encode .slEnq = [0x4100] ∧
  ∀ s : State, s.valid.length ≤ s.cfg.validDepth →
    (s.valid.length ≠ s.cfg.validDepth →
      exec .slEnq s = .next { s with
        valid := s.valid ++ [s.slAddr]
        validLog := s.validLog ++ [s.slAddr]
        held := false
        out := { res := some { ok := true, addr := s.slAddr }, tx := none } }) ∧
    (s.valid.length = s.cfg.validDepth →
      exec .slEnq s = .next { s with held := true, out := { res := none, tx := none } })

/-- R154: `SL_DRAIN1` takes the front of the free queue, or answers `ok` = 0 and changes nothing. -/
def Obligations.DrainTakesTheFront : Prop :=
  encode .slDrain1 = [0x4200] ∧
  ∀ s : State,
    (s.free = [] → exec .slDrain1 s = .next { s with out := { res := some { ok := false }, tx := none } }) ∧
    (∀ a q, s.free = a :: q →
      exec .slDrain1 s = .next { s with free := q, out := { res := some { ok := true, addr := a }, tx := none } })

/-- R155: `SL_LINE` advances the line, wrapping at `FRAME_HEIGHT`. -/
def Obligations.LineAdvancesWithWrap : Prop :=
  encode .slLine = [0x4300] ∧
  ∀ s : State, s.line < s.cfg.frameHeight →
    exec .slLine s = .next { s with
      line := (s.line + 1) % s.cfg.frameHeight, out := { res := some {}, tx := none } }

/-- R156: the drain loop, with no engine step in between, ends and leaves the free queue empty and all else as it was. -/
def Obligations.DrainLoopEmptiesFree : Prop :=
  ∀ s : State, s.held = false →
    execPseudo .slDrain s = .next { s with free := [], out := { res := some { ok := false }, tx := none } }

/-- R160: pipeline iterations with no page change and no engine step in between (log 24) enqueue the row-major enumeration of
the page's lines, from the current line on, and `line` wraps without skipping or repeating. The sweep is within the room on
`valid`; a longer one needs the engine to take, and is covered iteration by iteration in `IterationEnqueuesTheNewPage`. -/
def Obligations.SweepIsRowMajor : Prop :=
  ∀ (k : Nat) (s : State), configOk s.cfg = true → 1 ≤ s.cfg.addrScale →
    s.page < s.cfg.pageNum → s.line < s.cfg.frameHeight → s.held = false → s.valid.length + k ≤ s.cfg.validDepth →
    ∃ t, repeatPseudo .slIter k s = .next t ∧ t.page = s.page ∧ t.line = (s.line + k) % s.cfg.frameHeight ∧
      t.validLog = s.validLog ++ (List.range k).map fun j =>
        scanAddr s.cfg s.page ((s.line + j) % s.cfg.frameHeight)

/-- R157: in every step, resets included, the latch of a running iteration stays the address of the current page and line,
so the address that `SL_ENQ` enqueues is that of one page and line of its iteration. -/
def Obligations.LatchStaysCurrent : Prop :=
  ∀ s t : State, s.LatchIsCurrent → step s = .next t → t.LatchIsCurrent

/-- R162, R163, R164: when each engine step is enabled and what it does. Three things in it are the model's choice: a step
that is not enabled changes nothing (log 7); the move's index picks the address that `DE_RET` returns (log 15); and every
engine step, enabled or not, shows no result and no strobe (`out`, log 12, unsafe for a claim about these ports). -/
def Obligations.EngineMoves : Prop :=
  ∀ (s : State) (rest : List Move), configOk s.cfg = true →
    let idle : State := { s with sched := rest, out := { res := none, tx := none } }
    (s.sched = .deStart :: rest →
      step s = .next (if s.deStarted = false ∧ 1 ≤ s.valid.length then { idle with deStarted := true } else idle)) ∧
    (s.sched = .deTake :: rest →
      (∀ a q, s.deStarted = true → s.valid = a :: q →
        step s = .next { idle with valid := q, deHeld := s.deHeld ++ [a] }) ∧
      (s.deStarted = false ∨ s.valid = [] → step s = .next idle)) ∧
    ∀ choice, s.sched = .deRet choice :: rest →
      (∀ a, s.free.length < s.cfg.freeDepth → s.deHeld[choice % s.deHeld.length]? = some a →
        step s = .next { idle with
          deHeld := s.deHeld.eraseIdx (choice % s.deHeld.length), free := s.free ++ [a] }) ∧
      (s.deHeld = [] ∨ s.cfg.freeDepth ≤ s.free.length → step s = .next idle)

/-- R158, R164, R166: every step keeps the account of the addresses: `valid` is the end of what was enqueued, and no address
is held by the engine or on `free` more often than it was enqueued before. -/
def Obligations.HandoffStaysAccounted : Prop :=
  ∀ s t : State, s.HandoffAccounted → step s = .next t → t.HandoffAccounted

/-- R153, R163, R165: a held `SL_ENQ` is lifted by one `DE_TAKE`: CL's next own step completes it. -/
def Obligations.TakeLiftsHeldEnqueue : Prop :=
  ∀ (s : State) (inp : Inputs) (rest : List Move) (a : Nat) (q : List Nat),
    s.Inv → s.held = true → s.deStarted = true → s.valid = a :: q → s.sched = .deTake :: .cl inp :: rest →
    ∃ t, Host.Core.run Sys2Proof.core 2 s = .next t ∧ t.held = false ∧ t.valid = q ++ [s.slAddr] ∧
      t.deHeld = s.deHeld ++ [a] ∧ t.validLog = s.validLog ++ [s.slAddr] ∧
      t.result = { ok := true, addr := s.slAddr } ∧ (s.run = true → t.phase = 6)

/-- R153, R163, R165: but for a reset, a held `SL_ENQ` goes on only when `valid` has room, and only `DE_TAKE` makes room (the
bit `held` is log 11). -/
def Obligations.HoldIsLiftedOnlyByTake : Prop :=
  ∀ s t : State, s.noReset = true → step s = .next t →
    (s.held = true → t.held = false → s.valid.length < s.cfg.validDepth ∧ t.valid = s.valid ++ [s.slAddr]) ∧
    (t.valid.length < s.valid.length → s.deStarted = true ∧ ∃ rest, s.sched = .deTake :: rest)

/-! ### The control loop (`44_control_loop.md`) -/

/-- R181: on an edge `PG_STEP` advances the page with wrap and shows the new page's digit; without one nothing changes. -/
def Obligations.PageStep : Prop :=
  encode .pgStep = [0x5000] ∧
  ∀ s : State, s.page < s.cfg.pageNum →
    (s.edge = true →
      exec .pgStep s = .next { s with
        page := (s.page + 1) % s.cfg.pageNum
        segOut := seg s.cfg (BitVec.ofNat 8 ((s.page + 1) % s.cfg.pageNum + 1))
        out := { res := some { data := seg s.cfg (BitVec.ofNat 8 ((s.page + 1) % s.cfg.pageNum + 1)) }, tx := none } }) ∧
    (s.edge = false → exec .pgStep s = .next { s with out := { res := some { data := s.segOut }, tx := none } })

/-- R190: after `k` page steps with an edge, `page` has advanced by `k` modulo `PAGE_NUM` and the indicator shows its digit;
so after `PAGE_NUM` of them it is back. -/
def Obligations.PageAfterEdges : Prop :=
  ∀ (k : Nat) (s : State), s.page < s.cfg.pageNum → s.edge = true → s.held = false →
    (∃ t, repeatExec .pgStep (k + 1) s = .next t ∧ t.page = (s.page + (k + 1)) % s.cfg.pageNum ∧
      t.segOut = seg s.cfg (BitVec.ofNat 8 ((s.page + (k + 1)) % s.cfg.pageNum + 1)) ∧
      t = { s with page := t.page, segOut := t.segOut, out := t.out }) ∧
    ∃ t, repeatExec .pgStep s.cfg.pageNum s = .next t ∧ t.page = s.page

/-- R182: `EG_XFER` sends the byte at `tail` and pops it when the port is ready and the buffer is not empty; else nothing is
popped and nothing written. -/
def Obligations.EgressSendsOneByte : Prop :=
  encode .egXfer = [0x6000] ∧
  ∀ s : State, s.ring.head < s.cfg.rbSize → s.ring.tail < s.cfg.rbSize →
    (s.inp.txReady = true → s.ring.head ≠ s.ring.tail →
      exec .egXfer s = .next { s with
        ring := { s.ring with tail := (s.ring.tail + 1) % s.cfg.rbSize }
        txLog := s.txLog ++ [memRead s.ring.buf s.ring.tail]
        out := {
          res := some { ok := true, data := memRead s.ring.buf s.ring.tail }
          tx := some (memRead s.ring.buf s.ring.tail) } }) ∧
    (s.inp.txReady = false ∨ s.ring.head = s.ring.tail →
      exec .egXfer s = .next { s with out := { res := some { ok := false }, tx := none } })

/-- R182, R209, R231, R232: in every step but a reset, what the history gains is exactly the byte of the strobe; a byte is
strobed only when the port is ready, and it is the oldest live one, which leaves the buffer. -/
def Obligations.SerialWritesOnlyWhenReady : Prop :=
  ∀ s t : State, s.Inv → s.noReset = true → step s = .next t →
    t.txLog = s.txLog ++ t.out.tx.toList ∧
    ∀ b, t.out.tx = some b → t.inp.txReady = true ∧ s.live = b :: t.live

/-- R188: from phase 0, with room on `valid` and no host command or engine step in between, eight sequencer steps and one
more for each address on `free` do what the commands of `ITER` do in order, and end at phase 0. -/
def Obligations.SequencerPassIsIter : Prop :=
  ∀ (s : State) (inp : Inputs) (rest : List Move),
    configOk s.cfg = true → s.run = true → s.phase = 0 → s.held = false → s.valid.length < s.cfg.validDepth →
    s.sched = List.replicate (8 + s.free.length) (.cl inp) ++ rest →
    Host.Core.run Sys2Proof.core (8 + s.free.length) s =
      mapNext (fun t => { t with phase := 0 }) (execPseudo .iter ({ s with sched := rest }.latch inp))

/-- R188, R189: one iteration with room on `valid` enqueues one address, that of the page after this iteration's edge and of
the line the sweep had reached; an edge advances the page by one, no edge leaves it. No engine step runs between its commands
(log 24, the model's choice; R188 lets one run between any two), so the drain loop leaves `free` empty. -/
def Obligations.IterationEnqueuesTheNewPage : Prop :=
  ∀ s : State, configOk s.cfg = true → 1 ≤ s.cfg.addrScale → s.page < s.cfg.pageNum → s.line < s.cfg.frameHeight →
    s.ring.head < s.cfg.rbSize → s.ring.tail < s.cfg.rbSize → s.held = false → s.valid.length < s.cfg.validDepth →
    ∃ t, execPseudo .iter s = .next t ∧
      t.page = (if t.edge = true then (s.page + 1) % s.cfg.pageNum else s.page) ∧
      t.validLog = s.validLog ++ [s.cfg.imageBase +
        s.cfg.addrScale * ((t.page * s.cfg.frameHeight + s.line) * s.cfg.frameWidth)] ∧
      t.line = (s.line + 1) % s.cfg.frameHeight ∧ t.free = []

/-! ### The whole machine (`00_scope.md`, `10_state.md`, `60_exceptions.md`, `70_reset_and_hazards.md`) -/

/-- R20, columns "written by": a command changes a register only if the table names it as a writer; the environment's state,
the ports HOST and the environment drive and the parameters it never changes. -/
def Obligations.OnlyTheTablesWritersWrite : Prop :=
  ∀ (i : Instr) (s t : State), exec i s = .next t →
    (i.isPush = true ∨ t.ring.buf = s.ring.buf ∧ t.ring.head = s.ring.head) ∧
    (i = .rbPop ∨ i = .egXfer ∨ t.ring.tail = s.ring.tail) ∧
    (i = .dbSample ∨
      t.s0 = s.s0 ∧ t.s1 = s.s1 ∧ t.s2 = s.s2 ∧ t.stable = s.stable ∧ t.tLast = s.tLast) ∧
    (i = .dbEdge ∨ t.prev = s.prev ∧ t.edge = s.edge) ∧
    (i = .pgStep ∧ s.edge = true ∨ t.page = s.page) ∧
    (i = .slLine ∨ t.line = s.line) ∧ (i = .slAddr ∨ t.slAddr = s.slAddr) ∧
    (i = .slEnq ∨ t.valid = s.valid ∧ t.validLog = s.validLog ∧ t.held = s.held) ∧
    (i = .slDrain1 ∨ t.free = s.free) ∧
    ((∃ d, i = .segShow d) ∨ i = .segPage ∨ i = .pgStep ∧ s.edge = true ∨ t.segOut = s.segOut) ∧
    (i = .sysRun ∨ t.run = s.run ∧ t.phase = s.phase) ∧ (i = .egXfer ∨ t.txLog = s.txLog) ∧
    t.deStarted = s.deStarted ∧ t.deHeld = s.deHeld ∧ t.cfg = s.cfg ∧ t.inp = s.inp ∧ t.cmdIn = s.cmdIn ∧
    t.sched = s.sched

/-- R37, R184: but for a reset, no step clears `run`, and only a `SYS_RUN` that HOST presents sets it, with `phase` at 0. That
CL was then not held is the model's choice, log 11: R92 has the port ready with `run` = 0 always. -/
def Obligations.RunSetOnlyBySysRun : Prop :=
  ∀ s t : State, s.noReset = true → step s = .next t →
    (s.run = true → t.run = true) ∧
    (s.run = false → t.run = true → s.held = false ∧ t.phase = 0 ∧ ∃ ws, decode s.cmdIn = .ok (.sysRun, ws))

/-- R6, R7, R8, U15: what a sound configuration is: the constraints of R8, the ten table entries of R6 and the at most 255
bytes of `IDENT_STRING` of R7. A machine with any other is refused at every step (log 1), and no step changes the configuration
(R46). That nothing more is asked, so that `TICKS_PER_MS` = 0 is sound, is the model's choice, log 25. -/
def Obligations.ConfigCheckedAndConstant : Prop :=
  (∀ c : Config, configOk c = true ↔
    2 ≤ c.rbSize ∧ 1 ≤ c.pageNum ∧ c.pageNum ≤ 255 ∧ 1 ≤ c.frameHeight ∧ 1 ≤ c.frameWidth ∧ c.imageBase % 2 = 0 ∧
    c.imageBase + c.addrScale * (c.pageNum * c.frameHeight * c.frameWidth) ≤ 2 ^ c.addrW ∧
    1 ≤ c.validDepth ∧ 1 ≤ c.freeDepth ∧ 10 * c.ticksPerMs < 2 ^ c.timeW ∧ c.segTable.length = 10 ∧
    (∀ b ∈ c.segTable, b.getLsbD 7 = true) ∧ c.identString.length ≤ 255) ∧
  ∀ s : State,
    (configOk s.cfg = false → step s = .refused .badConfiguration) ∧ ∀ t, step s = .next t → t.cfg = s.cfg

/-- R7: the width of an index into `n` things is at least 1, is enough, and no smaller width of at least 1 is. -/
def Obligations.IndexWidthIsExact : Prop :=
  ∀ n : Nat, 1 ≤ indexWidth n ∧ n ≤ 2 ^ indexWidth n ∧ ∀ w, 1 ≤ w → n ≤ 2 ^ w → indexWidth n ≤ w

/-- R220: a step with `rst` = 1 puts every register, queue and history at its reset value, whatever the state was; the ring
array may hold any bytes. -/
def Obligations.ResetStep : Prop :=
  ∀ (s : State) (contents : List Byte) (rest : List Move),
    configOk s.cfg = true → s.sched = .rst contents :: rest →
    ∃ t, step s = .next t ∧ t.ring.head = 0 ∧ t.ring.tail = 0 ∧
      (t.s0, t.s1, t.s2, t.stable, t.prev, t.edge) = (false, false, false, false, false, false) ∧
      t.tLast = 0 ∧ t.page = 0 ∧ t.line = 0 ∧ t.slAddr = 0 ∧ t.valid = [] ∧ t.free = [] ∧ t.segOut = 0xFF ∧
      t.run = false ∧ t.phase = 0 ∧ t.deStarted = false ∧ t.deHeld = [] ∧ t.txLog = [] ∧ t.validLog = [] ∧
      t.sched = rest

/-- R220, R221: the reset state meets the invariant of the machine, accounts for every address and latches nothing; so does
the reset state of every sound configuration, with any bytes in the ring array. -/
def Obligations.ResetMeetsInvariants : Prop :=
  (State.reset.Inv ∧ State.reset.HandoffAccounted ∧ State.reset.LatchIsCurrent) ∧
  ∀ (c : Config) (bytes : List Byte), configOk c = true → bytes.length ≤ c.rbSize →
    (State.resetWith c (memOfBytes 0 bytes)).Inv ∧ (State.resetWith c (memOfBytes 0 bytes)).HandoffAccounted

/-- R8, R21 to R24, R29, R31 to R35, R40 to R42: from every state that meets the invariant, whatever the schedule says, the
next state meets it. -/
def Obligations.StepKeepsInvariant : Prop :=
  ∀ s t : State, s.Inv → step s = .next t → t.Inv

/-- R13, R200, R201: in a state of the invariant no step stops: there is no fault, and no refusal but the result
`illegal`. That the model answers a next state for an illegal command, where R91 also says that a model treats it as a refusal,
is its choice, log 10; so is the next state of a move that is not enabled (log 7), of an empty schedule (log 8) and of an
incomplete packet (log 14). -/
def Obligations.InvariantNeverStops : Prop :=
  ∀ s : State, s.Inv → ∃ t, step s = .next t

/-- R223, R224, R143: the boot sequence after reset queues the identification bytes that fit, shows page 0 as the digit 1
and starts the sequencer at phase 0. No step of another agent runs between its commands (log 24). -/
def Obligations.BootSequence : Prop :=
  ∀ (c : Config) (bytes : List Byte), configOk c = true → c.sentinelEnqueued = false → bytes.length ≤ c.rbSize →
    ∃ t, execPseudo .boot (State.resetWith c (memOfBytes 0 bytes)) = .next t ∧
      t.run = true ∧ t.phase = 0 ∧ t.segOut = seg c 1 ∧ t.IndicatorShowsPage ∧
      t.live = (c.identString.takeWhile (fun b => b != c.sentinel)).take (c.rbSize - 1)
end

