-- ==== Sys2Proof/Laws/Decode.lean ====
section
/-! SUPPORT. The small lemmas of the decoder and the encoder: fields of built words, the rows that words with an operand
select, payloads. -/

namespace Sys2Proof

@[simp] theorem immOf_wordOf (u f : BitVec 4) (b : Byte) : immOf (wordOf u f b) = b :=
  BitVec.extractLsb'_append_eq_right

@[simp] theorem highByteOf_payloadWord (b : Byte) : highByteOf (payloadWord b) = 0 :=
  BitVec.extractLsb'_append_eq_left

@[simp] theorem immOf_payloadWord (b : Byte) : immOf (payloadWord b) = b :=
  BitVec.extractLsb'_append_eq_right

/-- The header that the first word selects, if any. -/
def headerOf (w : Word) : Option Header := (rowOf w).map fun r => r.build (immOf w)

theorem headerOf_rbPush : ∀ b : Byte, headerOf (wordOf 0x1 0x0 b) = some (.single (.rbPush b)) := by decide

theorem headerOf_segEnc : ∀ d : Byte, headerOf (wordOf 0x3 0x0 d) = some (.single (.segEnc d)) := by decide

theorem headerOf_segShow : ∀ d : Byte, headerOf (wordOf 0x3 0x1 d) = some (.single (.segShow d)) := by decide

theorem headerOf_rbPushB : ∀ b : Byte, headerOf (wordOf 0x1 0x2 b) = some (.bulk false) := by decide

theorem headerOf_rbPushBS : ∀ b : Byte, headerOf (wordOf 0x1 0x3 b) = some (.bulk true) := by decide

/-- Decoding a first word that selects a single command. -/
theorem decode_single {w : Word} {i : Instr} (h : headerOf w = some (.single i)) (ws : List Word) :
    decode (w :: ws) = .ok (i, ws) := by
  unfold headerOf at h
  cases hr : rowOf w with
  | none => simp [hr] at h
  | some r =>
    simp only [hr, Option.map_some, Option.some.injEq] at h
    simp only [decode, hr, h]

/-- Decoding a first word that selects a bulk header. -/
theorem decode_bulk {w : Word} {stop : Bool} (h : headerOf w = some (.bulk stop)) (ws : List Word) :
    decode (w :: ws) = decodeBulk stop (immOf w).toNat ws := by
  unfold headerOf at h
  cases hr : rowOf w with
  | none => simp [hr] at h
  | some r =>
    simp only [hr, Option.map_some, Option.some.injEq] at h
    simp only [decode, hr, h]

theorem payloadBytes_map_payloadWord (bs : List Byte) : payloadBytes (bs.map payloadWord) = some bs := by
  induction bs with
  | nil => rfl
  | cons b bs ih => simp [payloadBytes, ih]

theorem packetLength_bulk_false : ∀ b : Byte, packetLength (wordOf 0x1 0x2 b) = 1 + b.toNat := by decide

theorem packetLength_bulk_true : ∀ b : Byte, packetLength (wordOf 0x1 0x3 b) = 1 + b.toNat := by decide

theorem packetLength_rbPush : ∀ b : Byte, packetLength (wordOf 0x1 0x0 b) = 1 := by decide

theorem packetLength_segEnc : ∀ b : Byte, packetLength (wordOf 0x3 0x0 b) = 1 := by decide

theorem packetLength_segShow : ∀ b : Byte, packetLength (wordOf 0x3 0x1 b) = 1 := by decide

end Sys2Proof
end

