-- ==== Sys2Proof/Laws/Memory.lean ====
section
/-! SUPPORT. The laws of the ring array: a read after a write, and that every operation keeps the canonical form. -/

namespace Sys2Proof.Machine

open Sys2Proof

theorem memWfFrom_mono {lo lo' : Nat} (h : lo' ≤ lo) {m : List Host.Cell} (hm : memWfFrom lo m = true) :
    memWfFrom lo' m = true := by
  cases m with
  | nil => rfl
  | cons c m =>
    obtain ⟨a, b⟩ := c
    simp only [memWfFrom, Bool.and_eq_true, decide_eq_true_eq] at hm ⊢
    exact ⟨⟨by omega, hm.1.2⟩, hm.2⟩

/-- A slot below every listed one reads as unlisted. -/
theorem memRead_below {lo a : Nat} (h : a < lo) {m : List Host.Cell} (hm : memWfFrom lo m = true) :
    memRead m a = unlistedByte := by
  induction m generalizing lo with
  | nil => rfl
  | cons c m ih =>
    obtain ⟨a', b'⟩ := c
    simp only [memWfFrom, Bool.and_eq_true, decide_eq_true_eq] at hm
    have hne : a' ≠ a := by omega
    simp only [memRead, hne, if_false]
    exact ih (lo := a' + 1) (by omega) hm.2

theorem memRead_memWrite_same {lo : Nat} {m : List Host.Cell} (hm : memWfFrom lo m = true) (a : Nat) (b : Byte) :
    memRead (memWrite m a b) a = b := by
  induction m generalizing lo with
  | nil => by_cases hb : b = unlistedByte <;> simp [memWrite, memRead, hb]
  | cons c m ih =>
    obtain ⟨a', b'⟩ := c
    have hm' := hm
    simp only [memWfFrom, Bool.and_eq_true, decide_eq_true_eq] at hm
    simp only [memWrite]
    split
    · rename_i hlt
      split
      · rename_i hb
        rw [hb]
        exact memRead_below (lo := a + 1) (by omega)
          (by simp only [memWfFrom, Bool.and_eq_true, decide_eq_true_eq]; exact ⟨⟨by omega, hm.1.2⟩, hm.2⟩)
      · simp [memRead]
    · split
      · rename_i _ heq
        split
        · rename_i hb
          rw [hb]
          exact memRead_below (lo := a' + 1) (by omega) hm.2
        · simp [memRead]
      · rename_i hlt hne
        simp only [memRead, show ¬ a' = a from fun e => hne e.symm, if_false]
        exact ih hm.2

theorem memRead_memWrite_other {m : List Host.Cell} {a a' : Nat} (h : a' ≠ a) (b : Byte) :
    memRead (memWrite m a b) a' = memRead m a' := by
  induction m with
  | nil => by_cases hb : b = unlistedByte <;> simp [memWrite, memRead, hb, h.symm]
  | cons c m ih =>
    obtain ⟨a'', b''⟩ := c
    simp only [memWrite]
    split
    · split <;> simp [memRead, h.symm]
    · split
      · rename_i heq
        subst heq
        split <;> simp [memRead, h.symm]
      · simp only [memRead, ih]

theorem memWrite_wfFrom {lo : Nat} {m : List Host.Cell} (hm : memWfFrom lo m = true) {a : Nat} (ha : lo ≤ a) (b : Byte) :
    memWfFrom lo (memWrite m a b) = true := by
  induction m generalizing lo with
  | nil => by_cases hb : b = unlistedByte <;> simp [memWrite, memWfFrom, hb, ha]
  | cons c m ih =>
    obtain ⟨a', b'⟩ := c
    have hm' := hm
    simp only [memWfFrom, Bool.and_eq_true, decide_eq_true_eq] at hm
    simp only [memWrite]
    split
    · split
      · exact hm'
      · rename_i hlt hb
        simp only [memWfFrom, Bool.and_eq_true, decide_eq_true_eq]
        exact ⟨⟨ha, hb⟩, ⟨by omega, hm.1.2⟩, hm.2⟩
    · split
      · rename_i heq
        split
        · exact memWfFrom_mono (by omega) hm.2
        · rename_i hb
          simp only [memWfFrom, Bool.and_eq_true, decide_eq_true_eq]
          exact ⟨⟨ha, hb⟩, heq ▸ hm.2⟩
      · simp only [memWfFrom, Bool.and_eq_true, decide_eq_true_eq]
        exact ⟨hm.1, ih hm.2 (by omega)⟩

/-- A write keeps the canonical form. -/
theorem memWrite_wf {m : List Host.Cell} (hm : Memory.wf m = true) (a : Nat) (b : Byte) :
    Memory.wf (memWrite m a b) = true := memWrite_wfFrom hm (Nat.zero_le a) b

/-- A write to a slot keeps the ring array within its slots. -/
theorem memWrite_within {n : Nat} {m : List Host.Cell} (hm : memWithin n m = true) {a : Nat} (ha : a < n) (b : Byte) :
    memWithin n (memWrite m a b) = true := by
  induction m with
  | nil => by_cases hb : b = unlistedByte <;> simp [memWrite, memWithin, hb, ha]
  | cons c m ih =>
    obtain ⟨a', b'⟩ := c
    simp only [memWithin, List.all_cons, Bool.and_eq_true, decide_eq_true_eq] at hm ih
    simp only [memWrite]
    split
    · split <;> simp [memWithin, ha, hm.1, hm.2]
    · split
      · split
        · simpa [memWithin] using hm.2
        · simp [memWithin, ha, hm.2]
      · simp only [memWithin, List.all_cons, Bool.and_eq_true, decide_eq_true_eq]
        exact ⟨hm.1, ih hm.2⟩

theorem memOfBytes_wfFrom (bs : List Byte) (a : Nat) : memWfFrom a (memOfBytes a bs) = true := by
  induction bs generalizing a with
  | nil => rfl
  | cons b bs ih =>
    simp only [memOfBytes]
    split
    · exact memWfFrom_mono (Nat.le_succ a) (ih (a + 1))
    · rename_i hb
      simp only [memWfFrom, Bool.and_eq_true, decide_eq_true_eq]
      exact ⟨⟨Nat.le_refl a, hb⟩, ih (a + 1)⟩

/-- The ring array that reset leaves is in canonical form. -/
theorem memOfBytes_wf (bs : List Byte) : Memory.wf (memOfBytes 0 bs) = true := memOfBytes_wfFrom bs 0

/-- It lists no slot beyond the bytes given. -/
theorem memOfBytes_within (bs : List Byte) (a n : Nat) (h : a + bs.length ≤ n) : memWithin n (memOfBytes a bs) = true := by
  induction bs generalizing a with
  | nil => rfl
  | cons b bs ih =>
    simp only [List.length_cons] at h
    simp only [memOfBytes]
    split
    · exact ih (a + 1) (by omega)
    · have h' := ih (a + 1) (by omega)
      simp only [memWithin, List.all_cons, Bool.and_eq_true, decide_eq_true_eq] at h' ⊢
      exact ⟨by omega, h'⟩

/-- The memory of the reset state is in canonical form. -/
theorem reset_memory_wf : Memory.wf State.reset.ring.buf = true := rfl

end Sys2Proof.Machine
end

