-- ==== Sys2Proof/Laws/Ring.lean ====
section
/-! SUPPORT. The laws of the ring buffer's operations: what a push, a pop and a bulk push can do, in terms of the indices and
of the live bytes (`40_ring_buffer.md` R100 to R103). -/

namespace Sys2Proof.Machine

open Sys2Proof

variable {n : Nat} {r : Ring}

/-! ### Indices -/

theorem Ring.inRange_iff : r.inRange n = true ↔ r.head < n ∧ r.tail < n := by
  simp [Ring.inRange]

theorem ringNext_lt (h : 0 < n) (i : Nat) : ringNext n i < n := Nat.mod_lt _ h

theorem ringNext_eq {i : Nat} (h : i < n) : ringNext n i = if i + 1 = n then 0 else i + 1 := by
  unfold ringNext
  split
  · rename_i e
    rw [e, Nat.mod_self]
  · exact Nat.mod_eq_of_lt (by omega)

theorem Ring.count_eq (h : r.inRange n = true) :
    r.count n = if r.tail ≤ r.head then r.head - r.tail else r.head + n - r.tail := by
  obtain ⟨hh, ht⟩ := Ring.inRange_iff.mp h
  unfold Ring.count
  split
  · rw [show r.head + n - r.tail = r.head - r.tail + n by omega, Nat.add_mod_right]
    exact Nat.mod_eq_of_lt (by omega)
  · exact Nat.mod_eq_of_lt (by omega)

theorem Ring.count_lt (h : r.inRange n = true) : r.count n < n := by
  obtain ⟨hh, ht⟩ := Ring.inRange_iff.mp h
  rw [Ring.count_eq h]
  split <;> omega

theorem Ring.isEmpty_iff : r.isEmpty = true ↔ r.head = r.tail := by simp [Ring.isEmpty]

theorem Ring.isFull_iff : r.isFull n = true ↔ ringNext n r.head = r.tail := by simp [Ring.isFull]

theorem Ring.isEmpty_iff_count (h : r.inRange n = true) : r.isEmpty = true ↔ r.count n = 0 := by
  obtain ⟨hh, ht⟩ := Ring.inRange_iff.mp h
  rw [Ring.isEmpty_iff, Ring.count_eq h]
  split <;> omega

theorem Ring.isFull_iff_count (h : r.inRange n = true) : r.isFull n = true ↔ r.count n = n - 1 := by
  obtain ⟨hh, ht⟩ := Ring.inRange_iff.mp h
  rw [Ring.isFull_iff, Ring.count_eq h, ringNext_eq hh]
  split <;> split <;> omega

@[simp] theorem Ring.live_length : (r.live n).length = r.count n := by simp [Ring.live]

/-! ### What each operation does -/

theorem Ring.push_full {b : Byte} (h : r.isFull n = true) : r.push n b = (r, false) := by simp [Ring.push, h]

theorem Ring.push_room {b : Byte} (h : r.isFull n = false) :
    r.push n b = ({ r with buf := memWrite r.buf r.head b, head := ringNext n r.head }, true) := by
  simp [Ring.push, h]

theorem Ring.pop_empty (h : r.isEmpty = true) : r.pop n = none := by simp [Ring.pop, h]

theorem Ring.pop_some (h : r.isEmpty = false) :
    r.pop n = some (memRead r.buf r.tail, { r with tail := ringNext n r.tail }) := by
  simp [Ring.pop, h]

/-- Everything a push can do. -/
theorem Ring.push_cases (n : Nat) (b : Byte) (r : Ring) :
    (r.isFull n = true ∧ r.push n b = (r, false)) ∨
      (r.isFull n = false ∧
        r.push n b = ({ r with buf := memWrite r.buf r.head b, head := ringNext n r.head }, true)) := by
  cases h : r.isFull n
  · exact .inr ⟨rfl, Ring.push_room h⟩
  · exact .inl ⟨rfl, Ring.push_full h⟩

/-- Everything a pop can do. -/
theorem Ring.pop_cases (n : Nat) (r : Ring) :
    (r.isEmpty = true ∧ r.pop n = none) ∨
      (r.isEmpty = false ∧ r.pop n = some (memRead r.buf r.tail, { r with tail := ringNext n r.tail })) := by
  cases h : r.isEmpty
  · exact .inr ⟨rfl, Ring.pop_some h⟩
  · exact .inl ⟨rfl, Ring.pop_empty h⟩

/-- What a bulk push may assume of its start it may conclude of its end, for whatever one successful push keeps. -/
theorem Ring.bulkPush_keeps {P : Ring → Prop} {cfg : Config}
    (hP : ∀ r b, P r → r.isFull cfg.rbSize = false →
      P { r with buf := memWrite r.buf r.head b, head := ringNext cfg.rbSize r.head })
    (stop : Bool) (bs : List Byte) (h : P r) : P (r.bulkPush cfg stop bs).1 := by
  induction bs generalizing r with
  | nil => exact h
  | cons b bs ih =>
    simp only [Ring.bulkPush]
    obtain ⟨_, he⟩ | ⟨hf, he⟩ := Ring.push_cases cfg.rbSize b r
    · rw [he]
      split
      · split <;> exact h
      · exact h
    · rw [he]
      split
      · split
        · exact hP r b h hf
        · exact h
      · exact ih (hP r b h hf)

/-- The bytes accepted are at most those given. -/
theorem Ring.bulkPush_count_le (cfg : Config) (stop : Bool) (bs : List Byte) (r : Ring) :
    (r.bulkPush cfg stop bs).2 ≤ bs.length := by
  induction bs generalizing r with
  | nil => simp [Ring.bulkPush]
  | cons b bs ih =>
    simp only [Ring.bulkPush]
    split
    · split
      · split <;> simp
      · simp
    · split
      · simpa using ih _
      · simp

/-- A bulk push of two inputs in a row is one of the second after the first, unless the first stopped early (R103; the
sentinel not enqueued). -/
theorem Ring.bulkPush_append {cfg : Config} (hc : cfg.sentinelEnqueued = false) (stop : Bool) (as bs : List Byte)
    (r : Ring) : (r.bulkPush cfg stop (as ++ bs)).1 =
      if (r.bulkPush cfg stop as).2 = as.length then ((r.bulkPush cfg stop as).1.bulkPush cfg stop bs).1
      else (r.bulkPush cfg stop as).1 := by
  induction as generalizing r with
  | nil => simp [Ring.bulkPush]
  | cons b as ih =>
    simp only [List.cons_append, Ring.bulkPush, hc, Bool.false_eq_true, if_false]
    split
    · simp
    · split
      · simp [ih]
      · simp

/-- A bulk push never writes `tail`. -/
theorem Ring.bulkPush_tail (cfg : Config) (stop : Bool) (bs : List Byte) (r : Ring) :
    (r.bulkPush cfg stop bs).1.tail = r.tail :=
  Ring.bulkPush_keeps (P := fun r' => r'.tail = r.tail) (fun _ _ h _ => h) stop bs rfl

/-! ### The live bytes -/

theorem liveIndex {t k : Nat} (ht : t < n) (hk : k < n) : (t + k) % n = if t + k < n then t + k else t + k - n := by
  split
  · exact Nat.mod_eq_of_lt ‹_›
  · rw [Nat.mod_eq_sub_mod (by omega)]
    exact Nat.mod_eq_of_lt (by omega)

theorem Ring.inRange_push (b : List Host.Cell) (h : r.inRange n = true) :
    ({ r with buf := b, head := ringNext n r.head } : Ring).inRange n = true := by
  obtain ⟨hh, ht⟩ := Ring.inRange_iff.mp h
  exact Ring.inRange_iff.mpr ⟨ringNext_lt (by omega) _, ht⟩

theorem Ring.inRange_pop (h : r.inRange n = true) :
    ({ r with tail := ringNext n r.tail } : Ring).inRange n = true := by
  obtain ⟨hh, ht⟩ := Ring.inRange_iff.mp h
  exact Ring.inRange_iff.mpr ⟨hh, ringNext_lt (by omega) _⟩

/-- A successful push makes its byte the newest live one and leaves the others. -/
theorem Ring.live_push {b : Byte} (h : r.inRange n = true) (hw : Memory.wf r.buf = true) (hf : r.isFull n = false) :
    ({ r with buf := memWrite r.buf r.head b, head := ringNext n r.head } : Ring).live n = r.live n ++ [b] := by
  obtain ⟨hh, ht⟩ := Ring.inRange_iff.mp h
  have hf' : ¬ r.count n = n - 1 := fun e => by simp [(Ring.isFull_iff_count h).mpr e] at hf
  have hc := Ring.count_lt h
  have hcount : ({ r with buf := memWrite r.buf r.head b, head := ringNext n r.head } : Ring).count n = r.count n + 1 := by
    rw [Ring.count_eq (Ring.inRange_push _ h)]
    rw [Ring.count_eq h] at hf' ⊢
    simp only [ringNext_eq hh]
    split at hf' <;> split <;> split <;> omega
  unfold Ring.live
  rw [hcount, List.range_succ, List.map_append, List.map_singleton]
  have hat : (r.tail + r.count n) % n = r.head := by
    rw [liveIndex ht hc]
    rw [Ring.count_eq h]
    split <;> split <;> omega
  refine congrArg₂ _ (List.map_congr_left fun k hk => ?_) ?_
  · have hk' := List.mem_range.mp hk
    refine memRead_memWrite_other (fun e => ?_) b
    rw [liveIndex ht (by omega)] at e
    rw [Ring.count_eq h] at hk'
    split at e <;> split at hk' <;> omega
  · simp only [hat]
    rw [memRead_memWrite_same hw]

/-- A successful pop answers the oldest live byte and leaves the others. -/
theorem Ring.live_pop (h : r.inRange n = true) (he : r.isEmpty = false) :
    r.live n = memRead r.buf r.tail :: ({ r with tail := ringNext n r.tail } : Ring).live n := by
  obtain ⟨hh, ht⟩ := Ring.inRange_iff.mp h
  have he' : ¬ r.count n = 0 := fun e => by simp [(Ring.isEmpty_iff_count h).mpr e] at he
  have hcount : r.count n = ({ r with tail := ringNext n r.tail } : Ring).count n + 1 := by
    rw [Ring.count_eq (Ring.inRange_pop h)]
    rw [Ring.count_eq h] at he' ⊢
    simp only [ringNext_eq ht]
    split at he' <;> split <;> split <;> (try split) <;> omega
  unfold Ring.live
  rw [hcount, List.range_succ_eq_map, List.map_cons, List.map_map]
  refine congrArg₂ _ (by rw [Nat.add_zero, Nat.mod_eq_of_lt ht]) (List.map_congr_left fun k _ => ?_)
  simp only [Function.comp_apply, ringNext, Nat.mod_add_mod, Nat.succ_eq_add_one]
  rw [show r.tail + (k + 1) = r.tail + 1 + k by omega]

end Sys2Proof.Machine
end

