-- ==== Sys2Proof/Laws/State.lean ====
section
/-! SUPPORT. The small lemmas of the state's updates: one for each field of each shared update, all by `rfl`. -/

namespace Sys2Proof.Machine

open Sys2Proof

variable (s : State)

/-! ### `ret`: an answer without a write to the serial port -/

@[simp] theorem ret_cfg (r : Result) : (s.ret r).cfg = s.cfg := rfl
@[simp] theorem ret_ring (r : Result) : (s.ret r).ring = s.ring := rfl
@[simp] theorem ret_s0 (r : Result) : (s.ret r).s0 = s.s0 := rfl
@[simp] theorem ret_s1 (r : Result) : (s.ret r).s1 = s.s1 := rfl
@[simp] theorem ret_s2 (r : Result) : (s.ret r).s2 = s.s2 := rfl
@[simp] theorem ret_stable (r : Result) : (s.ret r).stable = s.stable := rfl
@[simp] theorem ret_prev (r : Result) : (s.ret r).prev = s.prev := rfl
@[simp] theorem ret_tLast (r : Result) : (s.ret r).tLast = s.tLast := rfl
@[simp] theorem ret_edge (r : Result) : (s.ret r).edge = s.edge := rfl
@[simp] theorem ret_page (r : Result) : (s.ret r).page = s.page := rfl
@[simp] theorem ret_line (r : Result) : (s.ret r).line = s.line := rfl
@[simp] theorem ret_slAddr (r : Result) : (s.ret r).slAddr = s.slAddr := rfl
@[simp] theorem ret_valid (r : Result) : (s.ret r).valid = s.valid := rfl
@[simp] theorem ret_free (r : Result) : (s.ret r).free = s.free := rfl
@[simp] theorem ret_segOut (r : Result) : (s.ret r).segOut = s.segOut := rfl
@[simp] theorem ret_run (r : Result) : (s.ret r).run = s.run := rfl
@[simp] theorem ret_phase (r : Result) : (s.ret r).phase = s.phase := rfl
@[simp] theorem ret_held (r : Result) : (s.ret r).held = s.held := rfl
@[simp] theorem ret_deStarted (r : Result) : (s.ret r).deStarted = s.deStarted := rfl
@[simp] theorem ret_deHeld (r : Result) : (s.ret r).deHeld = s.deHeld := rfl
@[simp] theorem ret_txLog (r : Result) : (s.ret r).txLog = s.txLog := rfl
@[simp] theorem ret_validLog (r : Result) : (s.ret r).validLog = s.validLog := rfl
@[simp] theorem ret_out (r : Result) : (s.ret r).out = { res := some r, tx := none } := rfl
@[simp] theorem ret_inp (r : Result) : (s.ret r).inp = s.inp := rfl
@[simp] theorem ret_cmdIn (r : Result) : (s.ret r).cmdIn = s.cmdIn := rfl
@[simp] theorem ret_sched (r : Result) : (s.ret r).sched = s.sched := rfl

/-! ### `refuseCommand` -/

@[simp] theorem refuseCommand_cfg : (s.refuseCommand).cfg = s.cfg := rfl
@[simp] theorem refuseCommand_ring : (s.refuseCommand).ring = s.ring := rfl
@[simp] theorem refuseCommand_s0 : (s.refuseCommand).s0 = s.s0 := rfl
@[simp] theorem refuseCommand_s1 : (s.refuseCommand).s1 = s.s1 := rfl
@[simp] theorem refuseCommand_s2 : (s.refuseCommand).s2 = s.s2 := rfl
@[simp] theorem refuseCommand_stable : (s.refuseCommand).stable = s.stable := rfl
@[simp] theorem refuseCommand_prev : (s.refuseCommand).prev = s.prev := rfl
@[simp] theorem refuseCommand_tLast : (s.refuseCommand).tLast = s.tLast := rfl
@[simp] theorem refuseCommand_edge : (s.refuseCommand).edge = s.edge := rfl
@[simp] theorem refuseCommand_page : (s.refuseCommand).page = s.page := rfl
@[simp] theorem refuseCommand_line : (s.refuseCommand).line = s.line := rfl
@[simp] theorem refuseCommand_slAddr : (s.refuseCommand).slAddr = s.slAddr := rfl
@[simp] theorem refuseCommand_valid : (s.refuseCommand).valid = s.valid := rfl
@[simp] theorem refuseCommand_free : (s.refuseCommand).free = s.free := rfl
@[simp] theorem refuseCommand_segOut : (s.refuseCommand).segOut = s.segOut := rfl
@[simp] theorem refuseCommand_run : (s.refuseCommand).run = s.run := rfl
@[simp] theorem refuseCommand_phase : (s.refuseCommand).phase = s.phase := rfl
@[simp] theorem refuseCommand_held : (s.refuseCommand).held = s.held := rfl
@[simp] theorem refuseCommand_deStarted : (s.refuseCommand).deStarted = s.deStarted := rfl
@[simp] theorem refuseCommand_deHeld : (s.refuseCommand).deHeld = s.deHeld := rfl
@[simp] theorem refuseCommand_txLog : (s.refuseCommand).txLog = s.txLog := rfl
@[simp] theorem refuseCommand_validLog : (s.refuseCommand).validLog = s.validLog := rfl
@[simp] theorem refuseCommand_out : (s.refuseCommand).out = { res := some { illegal := true }, tx := none } := rfl
@[simp] theorem refuseCommand_inp : (s.refuseCommand).inp = s.inp := rfl
@[simp] theorem refuseCommand_cmdIn : (s.refuseCommand).cmdIn = s.cmdIn := rfl
@[simp] theorem refuseCommand_sched : (s.refuseCommand).sched = s.sched := rfl

/-! ### `quiet` -/

@[simp] theorem quiet_cfg : (s.quiet).cfg = s.cfg := rfl
@[simp] theorem quiet_ring : (s.quiet).ring = s.ring := rfl
@[simp] theorem quiet_s0 : (s.quiet).s0 = s.s0 := rfl
@[simp] theorem quiet_s1 : (s.quiet).s1 = s.s1 := rfl
@[simp] theorem quiet_s2 : (s.quiet).s2 = s.s2 := rfl
@[simp] theorem quiet_stable : (s.quiet).stable = s.stable := rfl
@[simp] theorem quiet_prev : (s.quiet).prev = s.prev := rfl
@[simp] theorem quiet_tLast : (s.quiet).tLast = s.tLast := rfl
@[simp] theorem quiet_edge : (s.quiet).edge = s.edge := rfl
@[simp] theorem quiet_page : (s.quiet).page = s.page := rfl
@[simp] theorem quiet_line : (s.quiet).line = s.line := rfl
@[simp] theorem quiet_slAddr : (s.quiet).slAddr = s.slAddr := rfl
@[simp] theorem quiet_valid : (s.quiet).valid = s.valid := rfl
@[simp] theorem quiet_free : (s.quiet).free = s.free := rfl
@[simp] theorem quiet_segOut : (s.quiet).segOut = s.segOut := rfl
@[simp] theorem quiet_run : (s.quiet).run = s.run := rfl
@[simp] theorem quiet_phase : (s.quiet).phase = s.phase := rfl
@[simp] theorem quiet_held : (s.quiet).held = s.held := rfl
@[simp] theorem quiet_deStarted : (s.quiet).deStarted = s.deStarted := rfl
@[simp] theorem quiet_deHeld : (s.quiet).deHeld = s.deHeld := rfl
@[simp] theorem quiet_txLog : (s.quiet).txLog = s.txLog := rfl
@[simp] theorem quiet_validLog : (s.quiet).validLog = s.validLog := rfl
@[simp] theorem quiet_out : (s.quiet).out = { res := none, tx := none } := rfl
@[simp] theorem quiet_inp : (s.quiet).inp = s.inp := rfl
@[simp] theorem quiet_cmdIn : (s.quiet).cmdIn = s.cmdIn := rfl
@[simp] theorem quiet_sched : (s.quiet).sched = s.sched := rfl

/-! ### `latch` -/

@[simp] theorem latch_cfg (i : Inputs) : (s.latch i).cfg = s.cfg := rfl
@[simp] theorem latch_ring (i : Inputs) : (s.latch i).ring = s.ring := rfl
@[simp] theorem latch_s0 (i : Inputs) : (s.latch i).s0 = s.s0 := rfl
@[simp] theorem latch_s1 (i : Inputs) : (s.latch i).s1 = s.s1 := rfl
@[simp] theorem latch_s2 (i : Inputs) : (s.latch i).s2 = s.s2 := rfl
@[simp] theorem latch_stable (i : Inputs) : (s.latch i).stable = s.stable := rfl
@[simp] theorem latch_prev (i : Inputs) : (s.latch i).prev = s.prev := rfl
@[simp] theorem latch_tLast (i : Inputs) : (s.latch i).tLast = s.tLast := rfl
@[simp] theorem latch_edge (i : Inputs) : (s.latch i).edge = s.edge := rfl
@[simp] theorem latch_page (i : Inputs) : (s.latch i).page = s.page := rfl
@[simp] theorem latch_line (i : Inputs) : (s.latch i).line = s.line := rfl
@[simp] theorem latch_slAddr (i : Inputs) : (s.latch i).slAddr = s.slAddr := rfl
@[simp] theorem latch_valid (i : Inputs) : (s.latch i).valid = s.valid := rfl
@[simp] theorem latch_free (i : Inputs) : (s.latch i).free = s.free := rfl
@[simp] theorem latch_segOut (i : Inputs) : (s.latch i).segOut = s.segOut := rfl
@[simp] theorem latch_run (i : Inputs) : (s.latch i).run = s.run := rfl
@[simp] theorem latch_phase (i : Inputs) : (s.latch i).phase = s.phase := rfl
@[simp] theorem latch_held (i : Inputs) : (s.latch i).held = s.held := rfl
@[simp] theorem latch_deStarted (i : Inputs) : (s.latch i).deStarted = s.deStarted := rfl
@[simp] theorem latch_deHeld (i : Inputs) : (s.latch i).deHeld = s.deHeld := rfl
@[simp] theorem latch_txLog (i : Inputs) : (s.latch i).txLog = s.txLog := rfl
@[simp] theorem latch_validLog (i : Inputs) : (s.latch i).validLog = s.validLog := rfl
@[simp] theorem latch_out (i : Inputs) : (s.latch i).out = s.out := rfl
@[simp] theorem latch_inp (i : Inputs) : (s.latch i).inp = { now := i.now % 2 ^ s.cfg.timeW, btnRaw := i.btnRaw, txReady := i.txReady } := rfl
@[simp] theorem latch_cmdIn (i : Inputs) : (s.latch i).cmdIn = s.cmdIn := rfl
@[simp] theorem latch_sched (i : Inputs) : (s.latch i).sched = s.sched := rfl

/-! ### `advance` -/

@[simp] theorem advance_cfg (p : BitVec 3) : (s.advance p).cfg = s.cfg := rfl
@[simp] theorem advance_ring (p : BitVec 3) : (s.advance p).ring = s.ring := rfl
@[simp] theorem advance_s0 (p : BitVec 3) : (s.advance p).s0 = s.s0 := rfl
@[simp] theorem advance_s1 (p : BitVec 3) : (s.advance p).s1 = s.s1 := rfl
@[simp] theorem advance_s2 (p : BitVec 3) : (s.advance p).s2 = s.s2 := rfl
@[simp] theorem advance_stable (p : BitVec 3) : (s.advance p).stable = s.stable := rfl
@[simp] theorem advance_prev (p : BitVec 3) : (s.advance p).prev = s.prev := rfl
@[simp] theorem advance_tLast (p : BitVec 3) : (s.advance p).tLast = s.tLast := rfl
@[simp] theorem advance_edge (p : BitVec 3) : (s.advance p).edge = s.edge := rfl
@[simp] theorem advance_page (p : BitVec 3) : (s.advance p).page = s.page := rfl
@[simp] theorem advance_line (p : BitVec 3) : (s.advance p).line = s.line := rfl
@[simp] theorem advance_slAddr (p : BitVec 3) : (s.advance p).slAddr = s.slAddr := rfl
@[simp] theorem advance_valid (p : BitVec 3) : (s.advance p).valid = s.valid := rfl
@[simp] theorem advance_free (p : BitVec 3) : (s.advance p).free = s.free := rfl
@[simp] theorem advance_segOut (p : BitVec 3) : (s.advance p).segOut = s.segOut := rfl
@[simp] theorem advance_run (p : BitVec 3) : (s.advance p).run = s.run := rfl
@[simp] theorem advance_phase (p : BitVec 3) : (s.advance p).phase = nextPhase p s := rfl
@[simp] theorem advance_held (p : BitVec 3) : (s.advance p).held = s.held := rfl
@[simp] theorem advance_deStarted (p : BitVec 3) : (s.advance p).deStarted = s.deStarted := rfl
@[simp] theorem advance_deHeld (p : BitVec 3) : (s.advance p).deHeld = s.deHeld := rfl
@[simp] theorem advance_txLog (p : BitVec 3) : (s.advance p).txLog = s.txLog := rfl
@[simp] theorem advance_validLog (p : BitVec 3) : (s.advance p).validLog = s.validLog := rfl
@[simp] theorem advance_out (p : BitVec 3) : (s.advance p).out = s.out := rfl
@[simp] theorem advance_inp (p : BitVec 3) : (s.advance p).inp = s.inp := rfl
@[simp] theorem advance_cmdIn (p : BitVec 3) : (s.advance p).cmdIn = s.cmdIn := rfl
@[simp] theorem advance_sched (p : BitVec 3) : (s.advance p).sched = s.sched := rfl

/-! ### `display` -/

@[simp] theorem display_cfg (d : Byte) : (s.display d).cfg = s.cfg := rfl
@[simp] theorem display_ring (d : Byte) : (s.display d).ring = s.ring := rfl
@[simp] theorem display_s0 (d : Byte) : (s.display d).s0 = s.s0 := rfl
@[simp] theorem display_s1 (d : Byte) : (s.display d).s1 = s.s1 := rfl
@[simp] theorem display_s2 (d : Byte) : (s.display d).s2 = s.s2 := rfl
@[simp] theorem display_stable (d : Byte) : (s.display d).stable = s.stable := rfl
@[simp] theorem display_prev (d : Byte) : (s.display d).prev = s.prev := rfl
@[simp] theorem display_tLast (d : Byte) : (s.display d).tLast = s.tLast := rfl
@[simp] theorem display_edge (d : Byte) : (s.display d).edge = s.edge := rfl
@[simp] theorem display_page (d : Byte) : (s.display d).page = s.page := rfl
@[simp] theorem display_line (d : Byte) : (s.display d).line = s.line := rfl
@[simp] theorem display_slAddr (d : Byte) : (s.display d).slAddr = s.slAddr := rfl
@[simp] theorem display_valid (d : Byte) : (s.display d).valid = s.valid := rfl
@[simp] theorem display_free (d : Byte) : (s.display d).free = s.free := rfl
@[simp] theorem display_segOut (d : Byte) : (s.display d).segOut = seg s.cfg d := rfl
@[simp] theorem display_run (d : Byte) : (s.display d).run = s.run := rfl
@[simp] theorem display_phase (d : Byte) : (s.display d).phase = s.phase := rfl
@[simp] theorem display_held (d : Byte) : (s.display d).held = s.held := rfl
@[simp] theorem display_deStarted (d : Byte) : (s.display d).deStarted = s.deStarted := rfl
@[simp] theorem display_deHeld (d : Byte) : (s.display d).deHeld = s.deHeld := rfl
@[simp] theorem display_txLog (d : Byte) : (s.display d).txLog = s.txLog := rfl
@[simp] theorem display_validLog (d : Byte) : (s.display d).validLog = s.validLog := rfl
@[simp] theorem display_out (d : Byte) : (s.display d).out = { res := some { data := seg s.cfg d }, tx := none } := rfl
@[simp] theorem display_inp (d : Byte) : (s.display d).inp = s.inp := rfl
@[simp] theorem display_cmdIn (d : Byte) : (s.display d).cmdIn = s.cmdIn := rfl
@[simp] theorem display_sched (d : Byte) : (s.display d).sched = s.sched := rfl

/-! ### `send` -/

@[simp] theorem send_cfg (b : Byte) (r : Ring) : (s.send b r).cfg = s.cfg := rfl
@[simp] theorem send_ring (b : Byte) (r : Ring) : (s.send b r).ring = r := rfl
@[simp] theorem send_s0 (b : Byte) (r : Ring) : (s.send b r).s0 = s.s0 := rfl
@[simp] theorem send_s1 (b : Byte) (r : Ring) : (s.send b r).s1 = s.s1 := rfl
@[simp] theorem send_s2 (b : Byte) (r : Ring) : (s.send b r).s2 = s.s2 := rfl
@[simp] theorem send_stable (b : Byte) (r : Ring) : (s.send b r).stable = s.stable := rfl
@[simp] theorem send_prev (b : Byte) (r : Ring) : (s.send b r).prev = s.prev := rfl
@[simp] theorem send_tLast (b : Byte) (r : Ring) : (s.send b r).tLast = s.tLast := rfl
@[simp] theorem send_edge (b : Byte) (r : Ring) : (s.send b r).edge = s.edge := rfl
@[simp] theorem send_page (b : Byte) (r : Ring) : (s.send b r).page = s.page := rfl
@[simp] theorem send_line (b : Byte) (r : Ring) : (s.send b r).line = s.line := rfl
@[simp] theorem send_slAddr (b : Byte) (r : Ring) : (s.send b r).slAddr = s.slAddr := rfl
@[simp] theorem send_valid (b : Byte) (r : Ring) : (s.send b r).valid = s.valid := rfl
@[simp] theorem send_free (b : Byte) (r : Ring) : (s.send b r).free = s.free := rfl
@[simp] theorem send_segOut (b : Byte) (r : Ring) : (s.send b r).segOut = s.segOut := rfl
@[simp] theorem send_run (b : Byte) (r : Ring) : (s.send b r).run = s.run := rfl
@[simp] theorem send_phase (b : Byte) (r : Ring) : (s.send b r).phase = s.phase := rfl
@[simp] theorem send_held (b : Byte) (r : Ring) : (s.send b r).held = s.held := rfl
@[simp] theorem send_deStarted (b : Byte) (r : Ring) : (s.send b r).deStarted = s.deStarted := rfl
@[simp] theorem send_deHeld (b : Byte) (r : Ring) : (s.send b r).deHeld = s.deHeld := rfl
@[simp] theorem send_txLog (b : Byte) (r : Ring) : (s.send b r).txLog = s.txLog ++ [b] := rfl
@[simp] theorem send_validLog (b : Byte) (r : Ring) : (s.send b r).validLog = s.validLog := rfl
@[simp] theorem send_out (b : Byte) (r : Ring) : (s.send b r).out = { res := some { data := b, ok := true }, tx := some b } := rfl
@[simp] theorem send_inp (b : Byte) (r : Ring) : (s.send b r).inp = s.inp := rfl
@[simp] theorem send_cmdIn (b : Byte) (r : Ring) : (s.send b r).cmdIn = s.cmdIn := rfl
@[simp] theorem send_sched (b : Byte) (r : Ring) : (s.send b r).sched = s.sched := rfl

/-! ### `takeSample` -/

@[simp] theorem takeSample_cfg : (s.takeSample).cfg = s.cfg := rfl
@[simp] theorem takeSample_ring : (s.takeSample).ring = s.ring := rfl
@[simp] theorem takeSample_s0 : (s.takeSample).s0 = logicalSample s.cfg.btnActiveLow s.inp.btnRaw := rfl
@[simp] theorem takeSample_s1 : (s.takeSample).s1 = s.s0 := rfl
@[simp] theorem takeSample_s2 : (s.takeSample).s2 = s.s1 := rfl
@[simp] theorem takeSample_stable : (s.takeSample).stable = consensus (logicalSample s.cfg.btnActiveLow s.inp.btnRaw) s.s0 s.s1 s.stable := rfl
@[simp] theorem takeSample_prev : (s.takeSample).prev = s.prev := rfl
@[simp] theorem takeSample_tLast : (s.takeSample).tLast = s.inp.now := rfl
@[simp] theorem takeSample_edge : (s.takeSample).edge = s.edge := rfl
@[simp] theorem takeSample_page : (s.takeSample).page = s.page := rfl
@[simp] theorem takeSample_line : (s.takeSample).line = s.line := rfl
@[simp] theorem takeSample_slAddr : (s.takeSample).slAddr = s.slAddr := rfl
@[simp] theorem takeSample_valid : (s.takeSample).valid = s.valid := rfl
@[simp] theorem takeSample_free : (s.takeSample).free = s.free := rfl
@[simp] theorem takeSample_segOut : (s.takeSample).segOut = s.segOut := rfl
@[simp] theorem takeSample_run : (s.takeSample).run = s.run := rfl
@[simp] theorem takeSample_phase : (s.takeSample).phase = s.phase := rfl
@[simp] theorem takeSample_held : (s.takeSample).held = s.held := rfl
@[simp] theorem takeSample_deStarted : (s.takeSample).deStarted = s.deStarted := rfl
@[simp] theorem takeSample_deHeld : (s.takeSample).deHeld = s.deHeld := rfl
@[simp] theorem takeSample_txLog : (s.takeSample).txLog = s.txLog := rfl
@[simp] theorem takeSample_validLog : (s.takeSample).validLog = s.validLog := rfl
@[simp] theorem takeSample_out : (s.takeSample).out = s.out := rfl
@[simp] theorem takeSample_inp : (s.takeSample).inp = s.inp := rfl
@[simp] theorem takeSample_cmdIn : (s.takeSample).cmdIn = s.cmdIn := rfl
@[simp] theorem takeSample_sched : (s.takeSample).sched = s.sched := rfl

/-! ### `bulk` -/

@[simp] theorem bulk_cfg (stop : Bool) (bytes : List Byte) : (s.bulk stop bytes).cfg = s.cfg := rfl
@[simp] theorem bulk_ring (stop : Bool) (bytes : List Byte) : (s.bulk stop bytes).ring = (s.ring.bulkPush s.cfg stop bytes).1 := rfl
@[simp] theorem bulk_s0 (stop : Bool) (bytes : List Byte) : (s.bulk stop bytes).s0 = s.s0 := rfl
@[simp] theorem bulk_s1 (stop : Bool) (bytes : List Byte) : (s.bulk stop bytes).s1 = s.s1 := rfl
@[simp] theorem bulk_s2 (stop : Bool) (bytes : List Byte) : (s.bulk stop bytes).s2 = s.s2 := rfl
@[simp] theorem bulk_stable (stop : Bool) (bytes : List Byte) : (s.bulk stop bytes).stable = s.stable := rfl
@[simp] theorem bulk_prev (stop : Bool) (bytes : List Byte) : (s.bulk stop bytes).prev = s.prev := rfl
@[simp] theorem bulk_tLast (stop : Bool) (bytes : List Byte) : (s.bulk stop bytes).tLast = s.tLast := rfl
@[simp] theorem bulk_edge (stop : Bool) (bytes : List Byte) : (s.bulk stop bytes).edge = s.edge := rfl
@[simp] theorem bulk_page (stop : Bool) (bytes : List Byte) : (s.bulk stop bytes).page = s.page := rfl
@[simp] theorem bulk_line (stop : Bool) (bytes : List Byte) : (s.bulk stop bytes).line = s.line := rfl
@[simp] theorem bulk_slAddr (stop : Bool) (bytes : List Byte) : (s.bulk stop bytes).slAddr = s.slAddr := rfl
@[simp] theorem bulk_valid (stop : Bool) (bytes : List Byte) : (s.bulk stop bytes).valid = s.valid := rfl
@[simp] theorem bulk_free (stop : Bool) (bytes : List Byte) : (s.bulk stop bytes).free = s.free := rfl
@[simp] theorem bulk_segOut (stop : Bool) (bytes : List Byte) : (s.bulk stop bytes).segOut = s.segOut := rfl
@[simp] theorem bulk_run (stop : Bool) (bytes : List Byte) : (s.bulk stop bytes).run = s.run := rfl
@[simp] theorem bulk_phase (stop : Bool) (bytes : List Byte) : (s.bulk stop bytes).phase = s.phase := rfl
@[simp] theorem bulk_held (stop : Bool) (bytes : List Byte) : (s.bulk stop bytes).held = s.held := rfl
@[simp] theorem bulk_deStarted (stop : Bool) (bytes : List Byte) : (s.bulk stop bytes).deStarted = s.deStarted := rfl
@[simp] theorem bulk_deHeld (stop : Bool) (bytes : List Byte) : (s.bulk stop bytes).deHeld = s.deHeld := rfl
@[simp] theorem bulk_txLog (stop : Bool) (bytes : List Byte) : (s.bulk stop bytes).txLog = s.txLog := rfl
@[simp] theorem bulk_validLog (stop : Bool) (bytes : List Byte) : (s.bulk stop bytes).validLog = s.validLog := rfl
@[simp] theorem bulk_out (stop : Bool) (bytes : List Byte) : (s.bulk stop bytes).out = { res := some { count := BitVec.ofNat 8 (s.ring.bulkPush s.cfg stop bytes).2 }, tx := none } := rfl
@[simp] theorem bulk_inp (stop : Bool) (bytes : List Byte) : (s.bulk stop bytes).inp = s.inp := rfl
@[simp] theorem bulk_cmdIn (stop : Bool) (bytes : List Byte) : (s.bulk stop bytes).cmdIn = s.cmdIn := rfl
@[simp] theorem bulk_sched (stop : Bool) (bytes : List Byte) : (s.bulk stop bytes).sched = s.sched := rfl

end Sys2Proof.Machine
end

