-- ==== Sys2Proof/Laws/Exec.lean ====
section
/-! SUPPORT. What each command can do, said once: `exec` at each constructor, and what no command writes. -/

namespace Sys2Proof.Machine

open Sys2Proof

variable {s t : State}

/-- Everything the ring guard can answer. -/
theorem ringGuard_next {u : State} : ringGuard s t = .next u ↔ s.ring.inRange s.cfg.rbSize = true ∧ t = u := by
  unfold ringGuard
  split
  · rename_i h
    simp [h]
  · rename_i h
    simp [h]

theorem ringGuard_of_inRange (h : s.ring.inRange s.cfg.rbSize = true) : ringGuard s t = .next t := by
  simp [ringGuard, h]

/-! ### The commands that answer in every state -/

theorem exec_sysNop (s : State) : exec .sysNop s = .next (s.ret {}) := rfl

theorem exec_sysRun (s : State) : exec .sysRun s = .next ({ s with run := true, phase := 0 }.ret {}) := rfl

theorem exec_dbSample (s : State) : exec .dbSample s = .next ((if s.gatePasses then s.takeSample else s).ret {}) := rfl

theorem exec_dbEdge (s : State) :
    exec .dbEdge s =
      .next ({ s with edge := risingEdge s.prev s.stable, prev := s.stable }.ret
        { edge := risingEdge s.prev s.stable }) := rfl

theorem exec_segEnc (d : Byte) (s : State) : exec (.segEnc d) s = .next (s.ret { data := seg s.cfg d }) := rfl

theorem exec_segShow (d : Byte) (s : State) : exec (.segShow d) s = .next (s.display d) := rfl

theorem exec_segPage (s : State) : exec .segPage s = .next (s.display (digitOf s.page)) := rfl

theorem exec_slAddr (s : State) :
    exec .slAddr s = .next ({ s with slAddr := s.scanWord }.ret { addr := s.scanWord }) := rfl

theorem exec_slLine (s : State) :
    exec .slLine s = .next ({ s with line := wrapInc s.cfg.frameHeight s.line }.ret {}) := rfl

theorem exec_slEnq_hold (h : s.validFull = true) : exec .slEnq s = .next { s.quiet with held := true } := by
  simp [exec, execSlEnq, h]

theorem exec_slEnq_room (h : s.validFull = false) :
    exec .slEnq s = .next ({ s with
      valid := s.valid ++ [s.slAddr], validLog := s.validLog ++ [s.slAddr], held := false }.ret
        { ok := true, addr := s.slAddr }) := by
  simp [exec, execSlEnq, h]

theorem exec_slDrain1_nil (h : s.free = []) : exec .slDrain1 s = .next (s.ret { ok := false }) := by
  simp [exec, execSlDrain1, h]

theorem exec_slDrain1_cons {a : Nat} {rest : List Nat} (h : s.free = a :: rest) :
    exec .slDrain1 s = .next ({ s with free := rest }.ret { ok := true, addr := a }) := by
  simp [exec, execSlDrain1, h]

theorem exec_pgStep_edge (h : s.edge = true) :
    exec .pgStep s = .next ({ s with page := wrapInc s.cfg.pageNum s.page }.display
      (digitOf (wrapInc s.cfg.pageNum s.page))) := by
  simp [exec, execPgStep, h]

theorem exec_pgStep_none (h : s.edge = false) : exec .pgStep s = .next (s.ret { data := s.segOut }) := by
  simp [exec, execPgStep, h]

/-! ### The ring commands -/

theorem exec_rbPush_next {b : Byte} :
    exec (.rbPush b) s = .next t ↔ s.ring.inRange s.cfg.rbSize = true ∧
      { s with ring := (s.ring.push s.cfg.rbSize b).1 }.ret { ok := (s.ring.push s.cfg.rbSize b).2 } = t := ringGuard_next

theorem exec_rbPushB_next {bytes : List Byte} :
    exec (.rbPushB bytes) s = .next t ↔ s.ring.inRange s.cfg.rbSize = true ∧ s.bulk false bytes = t := ringGuard_next

theorem exec_rbPushBS_next {bytes : List Byte} :
    exec (.rbPushBS bytes) s = .next t ↔ s.ring.inRange s.cfg.rbSize = true ∧ s.bulk true bytes = t := ringGuard_next

/-- Everything a pop command can do. -/
theorem exec_rbPop_next (h : exec .rbPop s = .next t) :
    s.ring.inRange s.cfg.rbSize = true ∧
      ((s.ring.isEmpty = true ∧ t = s.ret { data := s.cfg.popDefault, ok := false }) ∨
        (s.ring.isEmpty = false ∧ t = { s with ring := { s.ring with tail := ringNext s.cfg.rbSize s.ring.tail } }.ret
          { data := memRead s.ring.buf s.ring.tail, ok := true })) := by
  obtain ⟨hr, rfl⟩ := ringGuard_next.mp h
  obtain ⟨he, hp⟩ | ⟨he, hp⟩ := Ring.pop_cases s.cfg.rbSize s.ring
  · exact ⟨hr, .inl ⟨he, by rw [hp]⟩⟩
  · exact ⟨hr, .inr ⟨he, by rw [hp]⟩⟩

/-- Everything a serial transfer can do. -/
theorem exec_egXfer_next (h : exec .egXfer s = .next t) :
    s.ring.inRange s.cfg.rbSize = true ∧
      (((s.inp.txReady = false ∨ s.ring.isEmpty = true) ∧ t = s.ret { ok := false }) ∨
        (s.inp.txReady = true ∧ s.ring.isEmpty = false ∧
          t = s.send (memRead s.ring.buf s.ring.tail)
            { s.ring with tail := ringNext s.cfg.rbSize s.ring.tail })) := by
  obtain ⟨hr, rfl⟩ := ringGuard_next.mp h
  cases hx : s.inp.txReady
  · exact ⟨hr, .inl ⟨.inl rfl, by simp⟩⟩
  · obtain ⟨he, hp⟩ | ⟨he, hp⟩ := Ring.pop_cases s.cfg.rbSize s.ring
    · exact ⟨hr, .inl ⟨.inr he, by simp [hp]⟩⟩
    · exact ⟨hr, .inr ⟨rfl, he, by simp [hp]⟩⟩

/-! ### What no command writes -/

/-- A command writes neither the parameters, nor the input ports, nor what HOST presents, nor the schedule, nor the
engine's state. -/
theorem exec_environment {i : Instr} (h : exec i s = .next t) :
    t.cfg = s.cfg ∧ t.inp = s.inp ∧ t.cmdIn = s.cmdIn ∧ t.sched = s.sched ∧ t.deStarted = s.deStarted ∧
      t.deHeld = s.deHeld := by
  cases i with
  | rbPop =>
    obtain ⟨_, ⟨_, rfl⟩ | ⟨_, rfl⟩⟩ := exec_rbPop_next h <;> exact ⟨rfl, rfl, rfl, rfl, rfl, rfl⟩
  | egXfer =>
    obtain ⟨_, ⟨_, rfl⟩ | ⟨_, _, rfl⟩⟩ := exec_egXfer_next h <;> exact ⟨rfl, rfl, rfl, rfl, rfl, rfl⟩
  | rbPush b => obtain ⟨_, rfl⟩ := exec_rbPush_next.mp h; exact ⟨rfl, rfl, rfl, rfl, rfl, rfl⟩
  | rbPushB bs => obtain ⟨_, rfl⟩ := exec_rbPushB_next.mp h; exact ⟨rfl, rfl, rfl, rfl, rfl, rfl⟩
  | rbPushBS bs => obtain ⟨_, rfl⟩ := exec_rbPushBS_next.mp h; exact ⟨rfl, rfl, rfl, rfl, rfl, rfl⟩
  | dbSample =>
    cases h
    by_cases g : s.gatePasses = true <;> simp [g]
  | slEnq =>
    cases hf : s.validFull
    · rw [exec_slEnq_room hf] at h; cases h; exact ⟨rfl, rfl, rfl, rfl, rfl, rfl⟩
    · rw [exec_slEnq_hold hf] at h; cases h; exact ⟨rfl, rfl, rfl, rfl, rfl, rfl⟩
  | slDrain1 =>
    cases hf : s.free
    · rw [exec_slDrain1_nil hf] at h; cases h; exact ⟨rfl, rfl, rfl, rfl, rfl, rfl⟩
    · rw [exec_slDrain1_cons hf] at h; cases h; exact ⟨rfl, rfl, rfl, rfl, rfl, rfl⟩
  | pgStep =>
    cases he : s.edge
    · rw [exec_pgStep_none he] at h; cases h; exact ⟨rfl, rfl, rfl, rfl, rfl, rfl⟩
    · rw [exec_pgStep_edge he] at h; cases h; exact ⟨rfl, rfl, rfl, rfl, rfl, rfl⟩
  | _ => cases h; exact ⟨rfl, rfl, rfl, rfl, rfl, rfl⟩

/-- A command answers a next state or, where `head` or `tail` is no slot, the one fault: it is never refused. -/
theorem exec_total (i : Instr) (s : State) :
    (∃ t, exec i s = .next t) ∨ (s.ring.inRange s.cfg.rbSize = false ∧ exec i s = .fault .ringIndexOutOfRange) := by
  have guard : ∀ u : State, (∃ t, ringGuard s u = .next t) ∨
      (s.ring.inRange s.cfg.rbSize = false ∧ ringGuard s u = .fault .ringIndexOutOfRange) := fun u => by
    cases hr : s.ring.inRange s.cfg.rbSize
    · exact .inr ⟨rfl, by simp [ringGuard, hr]⟩
    · exact .inl ⟨u, ringGuard_of_inRange hr⟩
  cases i with
  | rbPush b => exact guard _
  | rbPop => exact guard _
  | rbPushB bs => exact guard _
  | rbPushBS bs => exact guard _
  | egXfer => exact guard _
  | slEnq =>
    cases hf : s.validFull
    · exact .inl ⟨_, exec_slEnq_room hf⟩
    · exact .inl ⟨_, exec_slEnq_hold hf⟩
  | slDrain1 =>
    cases hf : s.free
    · exact .inl ⟨_, exec_slDrain1_nil hf⟩
    · exact .inl ⟨_, exec_slDrain1_cons hf⟩
  | pgStep =>
    cases he : s.edge
    · exact .inl ⟨_, exec_pgStep_none he⟩
    · exact .inl ⟨_, exec_pgStep_edge he⟩
  | _ => exact .inl ⟨_, rfl⟩

end Sys2Proof.Machine
end

