-- ==== Sys2Proof/Laws/PerInstr.lean ====
section
/-! SUPPORT. The per-instruction family EncodedLength: the first word of an encoded command tells how many words it has
(`30_encoding.md` R88). -/

namespace Sys2Proof.Laws.EncodedLength

open Sys2Proof

/-- The length of the encoding is what its first word says. -/
def Statement (i : Instr) : Prop :=
  WellFormed i → (encode i).head?.map packetLength = some (encode i).length

theorem sysNop : Statement .sysNop := fun _ => by decide
theorem sysRun : Statement .sysRun := fun _ => by decide
theorem rbPush (b : Byte) : Statement (.rbPush b) := fun _ => congrArg some (packetLength_rbPush b)
theorem rbPop : Statement .rbPop := fun _ => by decide

/-- The length field of a well-formed packet holds the number of its bytes. -/
theorem lenField {bytes : List Byte} (h : payloadFits bytes = true) : (BitVec.ofNat 8 bytes.length).toNat = bytes.length := by
  have : bytes.length ≤ 255 := of_decide_eq_true h
  simp only [BitVec.toNat_ofNat]
  omega

theorem rbPushB (bytes : List Byte) : Statement (.rbPushB bytes) := fun h => by
  simp only [encode, bulkPacket, List.head?_cons, Option.map_some, packetLength_bulk_false, lenField h, List.length_cons,
    List.length_map, Nat.add_comm]

theorem rbPushBS (bytes : List Byte) : Statement (.rbPushBS bytes) := fun h => by
  simp only [encode, bulkPacket, List.head?_cons, Option.map_some, packetLength_bulk_true, lenField h, List.length_cons,
    List.length_map, Nat.add_comm]

theorem dbSample : Statement .dbSample := fun _ => by decide
theorem dbEdge : Statement .dbEdge := fun _ => by decide
theorem segEnc (d : Byte) : Statement (.segEnc d) := fun _ => congrArg some (packetLength_segEnc d)
theorem segShow (d : Byte) : Statement (.segShow d) := fun _ => congrArg some (packetLength_segShow d)
theorem segPage : Statement .segPage := fun _ => by decide
theorem slAddr : Statement .slAddr := fun _ => by decide
theorem slEnq : Statement .slEnq := fun _ => by decide
theorem slDrain1 : Statement .slDrain1 := fun _ => by decide
theorem slLine : Statement .slLine := fun _ => by decide
theorem pgStep : Statement .pgStep := fun _ => by decide
theorem egXfer : Statement .egXfer := fun _ => by decide

end Sys2Proof.Laws.EncodedLength
end

