-- ==== Sys2Proof/Laws/Pseudo.lean ====
section
/-! SUPPORT. Sequences of commands, said once: one command of a sequence that completes, holds or stops. -/

namespace Sys2Proof.Machine

open Sys2Proof

variable {i : Instr} {is : List Instr} {s t : State}

@[simp] theorem execAll_nil (s : State) : execAll [] s = .next s := rfl

/-- A command that completes is followed by the rest of the sequence. -/
theorem execAll_cons (h : exec i s = .next t) (hh : t.held = false) : execAll (i :: is) s = execAll is t := by
  simp [execAll, h, hh]

/-- A command that holds ends the sequence. -/
theorem execAll_cons_held (h : exec i s = .next t) (hh : t.held = true) : execAll (i :: is) s = .next t := by
  simp [execAll, h, hh]

/-- The commands each pseudo-instruction but `RB_PUTS` executes; the drain loop finds what `free` holds. -/
theorem execPseudo_slDrain (s : State) :
    execPseudo .slDrain s = execAll (List.replicate (s.free.length + 1) .slDrain1) s := rfl

theorem execPseudo_slIter (s : State) : execPseudo .slIter s =
    execAll ([.slAddr, .slEnq] ++ List.replicate (s.free.length + 1) .slDrain1 ++ [.slLine]) s := rfl

theorem execPseudo_iter (s : State) : execPseudo .iter s =
    execAll ([.dbSample, .dbEdge, .pgStep, .egXfer, .slAddr, .slEnq] ++
      List.replicate (s.free.length + 1) .slDrain1 ++ [.slLine]) s := rfl

theorem execPseudo_boot (s : State) :
    execPseudo .boot s = execAll [.segPage, .rbPushBS s.cfg.identString, .sysRun] s := rfl

/-- One more execution of a pseudo-instruction that completes. -/
theorem repeatPseudo_succ {p : Pseudo} {k : Nat} (h : execPseudo p s = .next t) (hh : t.held = false) :
    repeatPseudo p (k + 1) s = repeatPseudo p k t := by
  simp [repeatPseudo, h, hh]

/-! ### An input split into packets (`30_encoding.md` R82) -/

/-- The payloads are the input, in order. -/
@[simp] theorem payloadsOf_flatten (n : Nat) (bytes : List Byte) : (payloadsOf n bytes).flatten = bytes := by
  induction n generalizing bytes with
  | zero => simp [payloadsOf]
  | succ n ih =>
    unfold payloadsOf
    split <;> simp [ih]

/-- A packet carries each payload. -/
theorem payloadsOf_fits {n : Nat} {bytes p : List Byte} (h : bytes.length ≤ n) (hp : p ∈ payloadsOf n bytes) :
    payloadFits p = true := by
  induction n generalizing bytes with
  | zero =>
    simp only [payloadsOf, List.mem_singleton] at hp
    subst hp
    simpa [payloadFits] using Nat.le_trans h (Nat.zero_le 255)
  | succ n ih =>
    unfold payloadsOf at hp
    split at hp
    · simp only [List.mem_singleton] at hp
      subst hp
      simp [payloadFits, *]
    · rcases List.mem_cons.mp hp with rfl | hp
      · simp [payloadFits]
      · exact ih (by simp only [List.length_drop]; omega) hp

/-- An input that one packet carries is one packet. -/
theorem payloadsOf_short {n : Nat} {bytes : List Byte} (h : bytes.length ≤ 255) : payloadsOf n bytes = [bytes] := by
  cases n <;> simp [payloadsOf, h]

/-- Every command of an expansion has an encoding, whatever the length of the text (R80, R82). -/
theorem expand_wellFormed {cfg : Config} (hc : cfg.identString.length ≤ 255) (drains : Nat) (p : Pseudo) :
    ∀ i ∈ p.expand cfg drains, WellFormed i := by
  intro i hi
  cases p with
  | rbPuts text =>
    obtain ⟨q, hq, rfl⟩ := List.mem_map.mp hi
    exact payloadsOf_fits (Nat.le_refl _) hq
  | _ =>
    cases i <;> first
      | rfl
      | simp_all [Pseudo.expand, WellFormed, Instr.wellFormed, payloadFits]

/-- The first packet of an input, and whether the issuer presents the next one (R82, R103). -/
theorem issueBulk_cons {stop : Bool} {p : List Byte} (ps : List (List Byte)) {s : State}
    (hr : s.ring.inRange s.cfg.rbSize = true) (hh : s.held = false) (hp : payloadFits p = true) :
    issueBulk stop (p :: ps) s =
      if (s.ring.bulkPush s.cfg stop p).2 = p.length then issueBulk stop ps (s.bulk stop p)
      else .next (s.bulk stop p) := by
  have hexec : exec (bulkInstr stop p) s = .next (s.bulk stop p) := by
    cases stop <;> simp [bulkInstr, exec, execRbPushB, execRbPushBS, ringGuard, hr]
  have hcount : ((s.bulk stop p).out.res.getD {}).count.toNat = (s.ring.bulkPush s.cfg stop p).2 := by
    have hle := Ring.bulkPush_count_le s.cfg stop p s.ring
    have hlen : p.length ≤ 255 := by simpa [payloadFits] using hp
    simp only [State.bulk, State.ret, Option.getD_some, BitVec.toNat_ofNat]
    omega
  simp only [issueBulk, hexec, hcount, bulk_held, hh, true_and]

/-- R82: the packets of an input, the next presented only after `res.count = LEN`, leave the ring as one bulk push of the
whole input does, and change nothing else but the result. -/
theorem issueBulk_whole {stop : Bool} {ps : List (List Byte)} {s : State} (hc : s.cfg.sentinelEnqueued = false)
    (hr : s.ring.inRange s.cfg.rbSize = true) (hh : s.held = false) (hp : ∀ p ∈ ps, payloadFits p = true) :
    ∃ t, issueBulk stop ps s = .next t ∧ t.ring = (s.ring.bulkPush s.cfg stop ps.flatten).1 ∧
      t = { s with ring := t.ring, out := t.out } := by
  induction ps generalizing s with
  | nil => exact ⟨s, rfl, by simp [Ring.bulkPush], rfl⟩
  | cons p ps ih =>
    rw [issueBulk_cons ps hr hh (hp p List.mem_cons_self), List.flatten_cons, Ring.bulkPush_append hc]
    split
    · have hr' : (s.bulk stop p).ring.inRange (s.bulk stop p).cfg.rbSize = true :=
        Ring.bulkPush_keeps (P := fun r => r.inRange s.cfg.rbSize = true) (fun _ _ h _ => Ring.inRange_push _ h) stop p hr
      obtain ⟨t, h1, h2, h3⟩ := ih (s := s.bulk stop p) hc hr' hh fun q hq => hp q (List.mem_cons_of_mem _ hq)
      exact ⟨t, h1, h2, h3⟩
    · exact ⟨_, rfl, rfl, rfl⟩

/-- `RB_PUTS` of a text of at most 254 bytes is one `RB_PUSHBS` (R89). -/
theorem execPseudo_rbPuts_short {text : List Byte} {s : State} (h : text.length ≤ 254) :
    execPseudo (.rbPuts text) s = exec (.rbPushBS (text ++ [s.cfg.sentinel])) s := by
  have h' : (text ++ [s.cfg.sentinel]).length ≤ 255 := by simp; omega
  simp only [execPseudo, payloadsOf_short h', issueBulk, bulkInstr, if_true]
  split
  · next t ht => split <;> simp [ht]
  · next r hr => simp [hr]
  · next r hr => simp [hr]

/-- `RB_PUTS` of any text completes and leaves the ring as one bulk push of the text and the sentinel does (R82, R89). -/
theorem execPseudo_rbPuts {text : List Byte} {s : State} (hc : s.cfg.sentinelEnqueued = false)
    (hr : s.ring.inRange s.cfg.rbSize = true) (hh : s.held = false) :
    ∃ t, execPseudo (.rbPuts text) s = .next t ∧
      t.ring = (s.ring.bulkPush s.cfg true (text ++ [s.cfg.sentinel])).1 ∧
      t = { s with ring := t.ring, out := t.out } := by
  have := issueBulk_whole (stop := true) hc hr hh fun p => payloadsOf_fits (Nat.le_refl (text ++ [s.cfg.sentinel]).length)
  simpa [execPseudo] using this

end Sys2Proof.Machine
end

