-- ==== Sys2Proof/Laws/Step.lean ====
section
/-! SUPPORT. What a step can do, said once: the schedule's next move or the quiet environment's, and what each move is made
of. -/

namespace Sys2Proof.Machine

open Sys2Proof

variable {s t : State}

/-- Everything a step that answers a next state can be. -/
theorem step_next (h : step s = .next t) :
    configOk s.cfg = true ∧
      ((s.sched = [] ∧ quietStep s.quiet = .next t) ∨
        ∃ m rest, s.sched = m :: rest ∧ moveStep m { s.quiet with sched := rest } = .next t) := by
  unfold step at h
  split at h
  · rename_i hc
    refine ⟨hc, ?_⟩
    unfold scheduledStep at h
    cases hs : s.sched with
    | nil => rw [hs] at h; exact .inl ⟨rfl, h⟩
    | cons m rest => rw [hs] at h; exact .inr ⟨m, rest, rfl, h⟩
  · cases h

/-- The step of a sound configuration with a move scheduled. -/
theorem step_move {m : Move} {rest : List Move} (hc : configOk s.cfg = true) (hs : s.sched = m :: rest) :
    step s = moveStep m { s.quiet with sched := rest } := by
  simp [step, hc, scheduledStep, hs]

theorem mapNext_next {f : State → State} {a : Answer} (h : mapNext f a = .next t) : ∃ u, a = .next u ∧ f u = t := by
  cases a with
  | next u => cases h; exact ⟨u, rfl, rfl⟩
  | fault r => cases h
  | refused r => cases h

/-- Everything CL can do by itself. -/
theorem clStep_next (h : clStep s = .next t) :
    (s.run = true ∧ ∃ u, exec (loopInstr s.phase) s = .next u ∧ t = u.advance s.phase) ∨
      (s.run = false ∧ s.held = true ∧ exec .slEnq s = .next t) ∨ (s.run = false ∧ s.held = false ∧ t = s) := by
  unfold clStep at h
  split at h
  · rename_i hr
    obtain ⟨u, hu, rfl⟩ := mapNext_next h
    exact .inl ⟨hr, u, hu, rfl⟩
  · rename_i hr
    split at h
    · rename_i hh
      exact .inr (.inl ⟨by simpa using hr, hh, h⟩)
    · rename_i hh
      cases h
      exact .inr (.inr ⟨by simpa using hr, by simpa using hh, rfl⟩)

/-- Everything CL can do at the command port. -/
theorem hostStep_next (h : hostStep s = .next t) :
    t = s ∨ (s.held = false ∧
      ((∃ rest, t = { s with cmdIn := rest }.refuseCommand) ∨
        ∃ i rest, decode s.cmdIn = .ok (i, rest) ∧ s.accepts i = true ∧ exec i { s with cmdIn := rest } = .next t)) := by
  unfold hostStep at h
  split at h
  · rename_i hr
    have hh : s.held = false := by simpa [State.cmdReady] using hr
    cases hf : fetch s.cmdIn with
    | nothing => rw [hf] at h; cases h; exact .inl rfl
    | illegal why rest => rw [hf] at h; cases h; exact .inr ⟨hh, .inl ⟨rest, rfl⟩⟩
    | command i rest =>
      rw [hf] at h
      have hd : decode s.cmdIn = .ok (i, rest) := by
        unfold fetch at hf
        split at hf <;> simp_all
      simp only at h
      split at h
      · rename_i ha
        exact .inr ⟨hh, .inr ⟨i, rest, hd, ha, h⟩⟩
      · cases h
        exact .inr ⟨hh, .inl ⟨rest, rfl⟩⟩
  · cases h; exact .inl rfl

/-- A command that decodes, at a port that takes it. -/
theorem hostStep_command {i : Instr} {rest : List Word} (hh : s.held = false) (hd : decode s.cmdIn = .ok (i, rest)) :
    hostStep s =
      if s.accepts i then exec i { s with cmdIn := rest } else .next { s with cmdIn := rest }.refuseCommand := by
  simp [hostStep, State.cmdReady, hh, fetch, hd]

/-- The quiet environment's step is one of CL's two. -/
theorem quietStep_cases (s : State) : quietStep s = hostStep s ∨ quietStep s = clStep s := by
  unfold quietStep
  split
  · exact .inl rfl
  · exact .inl rfl
  · exact .inr rfl

/-! ### The loop's commands (`44_control_loop.md` R185) -/

theorem loopInstr_0 : loopInstr 0 = .dbSample := by decide
theorem loopInstr_1 : loopInstr 1 = .dbEdge := by decide
theorem loopInstr_2 : loopInstr 2 = .pgStep := by decide
theorem loopInstr_3 : loopInstr 3 = .egXfer := by decide
theorem loopInstr_4 : loopInstr 4 = .slAddr := by decide
theorem loopInstr_5 : loopInstr 5 = .slEnq := by decide
theorem loopInstr_6 : loopInstr 6 = .slDrain1 := by decide
theorem loopInstr_7 : loopInstr 7 = .slLine := by decide

/-- The eight positions of the sequencer. -/
theorem phase_cases (p : BitVec 3) : p = 0 ∨ p = 1 ∨ p = 2 ∨ p = 3 ∨ p = 4 ∨ p = 5 ∨ p = 6 ∨ p = 7 := by
  revert p; decide

/-! ### The engine's moves -/

/-- Everything `DE_START` can do. -/
theorem deStart_cases (s : State) :
    deStart s = s ∨ (s.deStarted = false ∧ s.valid ≠ [] ∧ deStart s = { s with deStarted := true }) := by
  unfold deStart
  split
  · rename_i h
    simp only [Bool.and_eq_true, Bool.not_eq_true', List.isEmpty_eq_false_iff] at h
    exact .inr ⟨h.1, h.2, rfl⟩
  · exact .inl rfl

/-- Everything `DE_TAKE` can do. -/
theorem deTake_cases (s : State) :
    deTake s = s ∨ ∃ a rest, s.deStarted = true ∧ s.valid = a :: rest ∧
      deTake s = { s with valid := rest, deHeld := s.deHeld ++ [a] } := by
  unfold deTake
  split
  · exact .inl rfl
  · rename_i a rest hv
    split
    · rename_i hs
      exact .inr ⟨a, rest, hs, hv, rfl⟩
    · exact .inl rfl

/-- Everything `DE_RET` can do. -/
theorem deRet_cases (choice : Nat) (s : State) :
    deRet choice s = s ∨ ∃ k a, s.deHeld[k]? = some a ∧ s.freeFull = false ∧
      deRet choice s = { s with deHeld := s.deHeld.eraseIdx k, free := s.free ++ [a] } := by
  unfold deRet
  split
  · exact .inl rfl
  · rename_i a ha
    split
    · exact .inl rfl
    · rename_i hf
      exact .inr ⟨_, a, ha, by simpa using hf, rfl⟩

theorem deTake_take {a : Nat} {rest : List Nat} (hs : s.deStarted = true) (hv : s.valid = a :: rest) :
    deTake s = { s with valid := rest, deHeld := s.deHeld ++ [a] } := by
  simp [deTake, hs, hv]

theorem deTake_not (h : s.deStarted = false ∨ s.valid = []) : deTake s = s := by
  obtain e | ⟨a, rest, hs, hv, _⟩ := deTake_cases s
  · exact e
  · simp [hs, hv] at h

theorem deRet_return {choice a : Nat} (ha : s.deHeld[choice % s.deHeld.length]? = some a) (hf : s.freeFull = false) :
    deRet choice s = { s with deHeld := s.deHeld.eraseIdx (choice % s.deHeld.length), free := s.free ++ [a] } := by
  simp [deRet, ha, hf]

theorem deRet_not {choice : Nat} (h : s.deHeld = [] ∨ s.freeFull = true) : deRet choice s = s := by
  obtain e | ⟨k, a, hk, hf, _⟩ := deRet_cases choice s
  · exact e
  · simp [hf] at h
    simp [h] at hk

/-! ### The sequencer's step -/

theorem clStep_run (h : s.run = true) : clStep s = mapNext (State.advance s.phase) (exec (loopInstr s.phase) s) := by
  simp [clStep, h]

/-- What a command does depends neither on the schedule, nor on the sequencer's position, nor on the last outputs, and only
`SYS_RUN` writes one of the first two. -/
theorem exec_elsewhere {i : Instr} (hi : i ≠ .sysRun) (s : State) (sched : List Move) (phase : BitVec 3) (out : Outputs) :
    exec i { s with sched := sched, phase := phase, out := out } =
      mapNext (fun t => { t with sched := sched, phase := phase }) (exec i s) := by
  have guard : ∀ u u' : State, u' = { u with sched := sched, phase := phase } →
      ringGuard { s with sched := sched, phase := phase, out := out } u' =
        mapNext (fun t => { t with sched := sched, phase := phase }) (ringGuard s u) := by
    rintro u u' rfl
    unfold ringGuard
    split <;> rfl
  cases i with
  | sysRun => exact absurd rfl hi
  | rbPush b => exact guard _ _ rfl
  | rbPushB bs => exact guard _ _ rfl
  | rbPushBS bs => exact guard _ _ rfl
  | rbPop =>
    refine guard _ _ ?_
    obtain ⟨_, hp⟩ | ⟨_, hp⟩ := Ring.pop_cases s.cfg.rbSize s.ring <;> simp only [hp] <;> rfl
  | egXfer =>
    refine guard _ _ ?_
    obtain ⟨_, hp⟩ | ⟨_, hp⟩ := Ring.pop_cases s.cfg.rbSize s.ring <;> simp only [hp] <;> split <;> rfl
  | dbSample =>
    by_cases g : s.gatePasses = true
    · have g' : ({ s with sched := sched, phase := phase, out := out } : State).gatePasses = true := g
      simp only [exec, execDbSample, g, g', if_true]; rfl
    · have g' : ¬ ({ s with sched := sched, phase := phase, out := out } : State).gatePasses = true := g
      simp only [exec, execDbSample, if_neg g, if_neg g']; rfl
  | slEnq =>
    obtain hf | hf : s.validFull = true ∨ s.validFull = false := by cases s.validFull <;> simp
    · rw [exec_slEnq_hold hf]
      exact exec_slEnq_hold (s := { s with sched := sched, phase := phase, out := out }) hf
    · rw [exec_slEnq_room hf]
      exact exec_slEnq_room (s := { s with sched := sched, phase := phase, out := out }) hf
  | slDrain1 =>
    obtain hf | ⟨a, q, hf⟩ : s.free = [] ∨ ∃ a q, s.free = a :: q := by cases s.free <;> simp
    · rw [exec_slDrain1_nil hf]
      exact exec_slDrain1_nil (s := { s with sched := sched, phase := phase, out := out }) hf
    · rw [exec_slDrain1_cons hf]
      exact exec_slDrain1_cons (s := { s with sched := sched, phase := phase, out := out }) hf
  | pgStep =>
    obtain he | he : s.edge = true ∨ s.edge = false := by cases s.edge <;> simp
    · rw [exec_pgStep_edge he]
      exact exec_pgStep_edge (s := { s with sched := sched, phase := phase, out := out }) he
    · rw [exec_pgStep_none he]
      exact exec_pgStep_none (s := { s with sched := sched, phase := phase, out := out }) he
  | _ => rfl

/-! ### Everything a step can do -/

/-- `b` differs from `s` only in the ports and the schedule; it strobes nothing, and its time fits where `s`'s does. -/
def State.Before (s b : State) : Prop :=
  b = { s with sched := b.sched, cmdIn := b.cmdIn, inp := b.inp, out := b.out } ∧ b.out.tx = none ∧
    (s.inp.now < 2 ^ s.cfg.timeW → b.inp.now < 2 ^ s.cfg.timeW)

theorem State.before_mk (s : State) (sched : List Move) (cmdIn : List Word) (res : Option Result) :
    s.Before { s with sched := sched, cmdIn := cmdIn, out := { res := res, tx := none } } :=
  ⟨rfl, rfl, fun h => h⟩

theorem State.before_latch (s : State) (sched : List Move) (cmdIn : List Word) (res : Option Result) (i : Inputs) :
    s.Before { s.latch i with sched := sched, cmdIn := cmdIn, out := { res := res, tx := none } } :=
  ⟨rfl, rfl, fun _ => Nat.mod_lt _ (Nat.two_pow_pos _)⟩

/-- What CL and HOST do in one step, from the state `b` in which the inputs of the step are drawn. -/
inductive ClMove (s b t : State) : Prop where
  /-- Nothing, or an illegal command refused in place. -/
  | nothing (h : s.Before t)
  /-- A host command, at a port that is ready and in a mode that accepts it. -/
  | host (i : Instr) (rest : List Word) (h : s.Before b) (free : s.held = false) (hd : decode s.cmdIn = .ok (i, rest))
      (ha : s.accepts i = true) (he : exec i b = .next t)
  /-- The sequencer's command. -/
  | sequencer (u : State) (h : s.Before b) (hr : s.run = true) (he : exec (loopInstr s.phase) b = .next u)
      (ht : t = u.advance s.phase)
  /-- Another try of a held `SL_ENQ` while the sequencer does not run. -/
  | retry (h : s.Before b) (hr : s.run = false) (hh : s.held = true) (he : exec .slEnq b = .next t)

/-- What one step does. -/
inductive StepMove (s t : State) : Prop where
  | cl (b : State) (h : ClMove s b t)
  | deStart (b : State) (h : s.Before b) (ht : t = Machine.deStart b) (hs : ∃ rest, s.sched = .deStart :: rest)
  | deTake (b : State) (h : s.Before b) (ht : t = Machine.deTake b) (hs : ∃ rest, s.sched = .deTake :: rest)
  | deRet (b : State) (choice : Nat) (h : s.Before b) (ht : t = Machine.deRet choice b)
    (hs : ∃ rest, s.sched = .deRet choice :: rest)
  | rst (b : State) (contents : List Byte) (h : s.Before b) (hr : s.noReset = false) (ht : t = b.applyReset contents)

/-- CL at the port, from a state that has drawn its inputs. -/
theorem hostStep_move {b : State} (hb : s.Before b) (hc : b.cmdIn = s.cmdIn)
    (hany : ∀ ws r, s.Before { b with cmdIn := ws, out := { res := r, tx := none } }) (h : hostStep b = .next t) :
    ∃ b', ClMove s b' t := by
  have hh : b.held = s.held := by rw [hb.1]
  have hacc : ∀ i, b.accepts i = s.accepts i := fun i => by rw [State.accepts, State.accepts, hb.1]
  obtain rfl | ⟨hf, ⟨rest, rfl⟩ | ⟨i, rest, hd, ha, he⟩⟩ := hostStep_next h
  · exact ⟨t, .nothing hb⟩
  · exact ⟨s, .nothing (hany _ _)⟩
  · refine ⟨{ b with cmdIn := rest }, .host i rest ?_ (hh ▸ hf) (hc ▸ hd) (hacc i ▸ ha) he⟩
    exact ⟨by conv_lhs => rw [hb.1], hb.2⟩

/-- CL by itself, from a state that has drawn its inputs. -/
theorem clStep_move {b : State} (hb : s.Before b) (h : clStep b = .next t) : ∃ b', ClMove s b' t := by
  have hr : b.run = s.run := by rw [hb.1]
  have hh : b.held = s.held := by rw [hb.1]
  have hp : b.phase = s.phase := by rw [hb.1]
  obtain ⟨h1, u, hu, ht⟩ | ⟨h1, h2, he⟩ | ⟨_, _, rfl⟩ := clStep_next h
  · exact ⟨b, .sequencer u hb (hr ▸ h1) (hp ▸ hu) (hp ▸ ht)⟩
  · exact ⟨b, .retry hb (hr ▸ h1) (hh ▸ h2) he⟩
  · exact ⟨t, .nothing hb⟩

/-- Everything a step can do. -/
theorem step_cases (h : step s = .next t) : configOk s.cfg = true ∧ StepMove s t := by
  obtain ⟨hc, ⟨_, hq⟩ | ⟨m, rest, hs, hm⟩⟩ := step_next h
  · refine ⟨hc, ?_⟩
    obtain e | e := quietStep_cases s.quiet
    · rw [e] at hq
      obtain ⟨b, hb⟩ := hostStep_move (s.before_mk s.sched s.cmdIn none) rfl (fun ws r => s.before_mk s.sched ws r) hq
      exact .cl b hb
    · rw [e] at hq
      obtain ⟨b, hb⟩ := clStep_move (s.before_mk s.sched s.cmdIn none) hq
      exact .cl b hb
  · refine ⟨hc, ?_⟩
    cases m with
    | host i =>
      obtain ⟨b, hb⟩ := hostStep_move (s.before_latch rest s.cmdIn none i) rfl
        (fun ws r => s.before_latch rest ws r i) hm
      exact .cl b hb
    | cl i =>
      obtain ⟨b, hb⟩ := clStep_move (s.before_latch rest s.cmdIn none i) hm
      exact .cl b hb
    | deStart => cases hm; exact .deStart _ (s.before_mk rest s.cmdIn none) rfl ⟨rest, hs⟩
    | deTake => cases hm; exact .deTake _ (s.before_mk rest s.cmdIn none) rfl ⟨rest, hs⟩
    | deRet choice => cases hm; exact .deRet _ choice (s.before_mk rest s.cmdIn none) rfl ⟨rest, hs⟩
    | rst contents =>
      cases hm
      exact .rst _ contents (s.before_mk rest s.cmdIn none) (by simp [State.noReset, hs]) rfl

/-! ### Runs -/

theorem run_zero (s : State) : Host.Core.run Sys2Proof.core 0 s = .next s := rfl

/-- A run of any machine goes on from the next state of its first step. -/
theorem core_run_succ (M : Host.Core) {s t : M.State} (k : Nat) (h : M.step s = .next t) :
    Host.Core.run M (k + 1) s = Host.Core.run M k t := by
  rw [Host.Core.run, h]

/-- A run goes on from the next state of its first step. -/
theorem run_succ (k : Nat) (h : step s = .next t) :
    Host.Core.run Sys2Proof.core (k + 1) s = Host.Core.run Sys2Proof.core k t :=
  core_run_succ Sys2Proof.core k h

/-- A run is what its first step is, whatever answers. -/
theorem core_run_first (M : Host.Core) {s t : M.State} (k : Nat) (h : M.step s = M.step t) :
    Host.Core.run M (k + 1) s = Host.Core.run M (k + 1) t := by
  rw [Host.Core.run, Host.Core.run, h]

/-- Two states with one step have one run. -/
theorem run_first (k : Nat) (h : step s = step t) :
    Host.Core.run Sys2Proof.core (k + 1) s = Host.Core.run Sys2Proof.core (k + 1) t :=
  core_run_first Sys2Proof.core k h

theorem core_run_fault (M : Host.Core) {s : M.State} {r : M.Fault} (k : Nat) (h : M.step s = .fault r) :
    Host.Core.run M (k + 1) s = .fault r := by
  rw [Host.Core.run, h]

/-- A run ends at the first fault. -/
theorem run_fault {r : Fault} (k : Nat) (h : step s = .fault r) :
    Host.Core.run Sys2Proof.core (k + 1) s = .fault r :=
  core_run_fault Sys2Proof.core k h

theorem core_run_refused (M : Host.Core) {s : M.State} {r : M.Refusal} (k : Nat) (h : M.step s = .refused r) :
    Host.Core.run M (k + 1) s = .refused r := by
  rw [Host.Core.run, h]

/-- A run ends at the first refusal. -/
theorem run_refused {r : Refusal} (k : Nat) (h : step s = .refused r) :
    Host.Core.run Sys2Proof.core (k + 1) s = .refused r :=
  core_run_refused Sys2Proof.core k h

end Sys2Proof.Machine
end

