-- ==== Sys2Proof/Machine/Assembler.lean ====
section
/-! DEFINITION. The assembler's line syntax (`30_encoding.md` R89): one command per line, byte and bulk operands, the inputs of
the step in square brackets, environment events, comments, pseudo-instructions. The block never sees text. -/

namespace Sys2Proof.Machine

open Sys2Proof

/-- A token of a line; a character literal is its code. -/
inductive Tok where
  | word (cs : List Char)
  | num (n : Nat)
  | str (bs : List Byte)
  | openBrace
  | closeBrace
  | openBracket
  | closeBracket
  | comma
  | equals
deriving DecidableEq, Repr

/-- The characters of words and numbers. -/
def isWordChar (c : Char) : Bool := c.isAlphanum || c == '_' || c == '@'

/-- The value of a hexadecimal digit. -/
def hexValue (c : Char) : Option Nat :=
  if c.isDigit then some (c.toNat - 48)
  else if 97 ≤ c.toNat && c.toNat ≤ 102 then some (c.toNat - 87)
  else if 65 ≤ c.toNat && c.toNat ≤ 70 then some (c.toNat - 55)
  else none

/-- Digits in a base, most significant first. -/
def digitsValue (base : Nat) : Nat → List Char → Option Nat
  | acc, [] => some acc
  | acc, c :: cs =>
    match hexValue c with
    | some d => if d < base then digitsValue base (acc * base + d) cs else none
    | none => none

/-- A number, decimal or with `0x` (R89, `00_scope.md` R9). -/
def numberValue : List Char → Option Nat
  | [] => none
  | '0' :: 'x' :: d :: ds => digitsValue 16 0 (d :: ds)
  | d :: ds => digitsValue 10 0 (d :: ds)

/-- A byte operand is at most 255. -/
def byteOf (n : Nat) : Option Byte := if n < 256 then some (BitVec.ofNat 8 n) else none

/-- An octal digit. -/
def isOctalDigit (c : Char) : Bool := decide (48 ≤ c.toNat) && decide (c.toNat ≤ 55)

/-- A hexadecimal digit. -/
def isHexDigit (c : Char) : Bool := (hexValue c).isSome

/-- The number whose digits are the first `n` characters, and the characters after it; none where there is no digit. -/
def leadingNumber (base n : Nat) (cs : List Char) : Option (Nat × List Char) :=
  if n = 0 then none else (digitsValue base 0 (cs.take n)).map fun v => (v, cs.drop n)

/-- The value of a C escape after its backslash, and the characters after it (R89: "C escapes"; log 21): one to three octal
digits, `x` and one hexadecimal digit or more, `u` with four or `U` with eight of them, or one character. -/
def escapeValue : List Char → Option (Nat × List Char)
  | 'a' :: cs => some (7, cs)
  | 'b' :: cs => some (8, cs)
  | 't' :: cs => some (9, cs)
  | 'n' :: cs => some (10, cs)
  | 'v' :: cs => some (11, cs)
  | 'f' :: cs => some (12, cs)
  | 'r' :: cs => some (13, cs)
  | 'x' :: cs => leadingNumber 16 (cs.takeWhile isHexDigit).length cs
  | 'u' :: cs => if 4 ≤ cs.length then leadingNumber 16 4 cs else none
  | 'U' :: cs => if 8 ≤ cs.length then leadingNumber 16 8 cs else none
  | c :: cs =>
    if isOctalDigit c then leadingNumber 8 (((c :: cs).take 3).takeWhile isOctalDigit).length (c :: cs)
    else if c.toNat = 92 || c.toNat = 34 || c.toNat = 39 || c.toNat = 63 then some (c.toNat, cs) else none
  | [] => none

/-- One character of a literal, escapes included; each character is one byte, so a value of 256 or more is none (R89). -/
def literalByte : List Char → Option (Byte × List Char)
  | [] => none
  | c :: cs =>
    match if c.toNat = 92 then escapeValue cs else some (c.toNat, cs) with
    | some (v, rest) => (byteOf v).map fun b => (b, rest)
    | none => none

/-- A string literal after its opening quote, up to and without the closing one. -/
def stringLiteral : Nat → List Char → Option (List Byte × List Char)
  | 0, _ => none
  | _ + 1, [] => none
  | n + 1, c :: cs =>
    if c.toNat = 34 then some ([], cs)
    else
      match literalByte (c :: cs) with
      | some (b, rest) => (stringLiteral n rest).map fun p => (b :: p.1, p.2)
      | none => none

/-- A character literal after its opening quote (R89). That a quote may stand unescaped between the quotes is the model's choice
(DESIGN CHOICE, log 26). -/
def charLiteral (cs : List Char) : Option (Nat × List Char) :=
  match literalByte cs with
  | some (b, q :: rest) => if q.toNat = 39 then some (b.toNat, rest) else none
  | _ => none

/-- The punctuation tokens. -/
def punctuation (c : Char) : Option Tok :=
  if c.toNat = 0x7B then some .openBrace
  else if c.toNat = 0x7D then some .closeBrace
  else if c.toNat = 0x5B then some .openBracket
  else if c.toNat = 0x5D then some .closeBracket
  else if c.toNat = 0x2C then some .comma
  else if c.toNat = 0x3D then some .equals
  else none

/-- The tokens of a line; `;` starts a comment (R89). `fuel` is more than the number of characters. -/
def lexLine : Nat → List Char → Option (List Tok)
  | 0, _ => none
  | _ + 1, [] => some []
  | n + 1, c :: cs =>
    if c.toNat = 32 || c.toNat = 9 then lexLine n cs
    else if c.toNat = 59 then some []
    else if c.toNat = 34 then
      match stringLiteral (n + 1) cs with
      | some (bs, rest) => (lexLine n rest).map (.str bs :: ·)
      | none => none
    else if c.toNat = 39 then
      match charLiteral cs with
      | some (v, rest) => (lexLine n rest).map (.num v :: ·)
      | none => none
    else if c.isDigit then
      match numberValue ((c :: cs).takeWhile isWordChar) with
      | some v => (lexLine n ((c :: cs).dropWhile isWordChar)).map (.num v :: ·)
      | none => none
    else if isWordChar c then
      (lexLine n ((c :: cs).dropWhile isWordChar)).map (.word ((c :: cs).takeWhile isWordChar) :: ·)
    else
      match punctuation c with
      | some t => (lexLine n cs).map (t :: ·)
      | none => none

/-- The operand of a line (R89). -/
inductive Operand where
  | absent
  | byte (b : Byte)
  | bytes (bs : List Byte)
deriving DecidableEq, Repr

/-- The rest of a brace list after one of its bytes. -/
def braceTail : List Tok → Option (List Byte × List Tok)
  | .closeBrace :: ts => some ([], ts)
  | .comma :: .num n :: ts =>
    match byteOf n, braceTail ts with
    | some b, some (bs, rest) => some (b :: bs, rest)
    | _, _ => none
  | _ => none

/-- The operand of a line and the tokens after it. -/
def parseOperand : List Tok → Option (Operand × List Tok)
  | .num n :: ts => (byteOf n).map fun b => (.byte b, ts)
  | .str bs :: ts => some (.bytes bs, ts)
  | .openBrace :: .closeBrace :: ts => some (.bytes [], ts)
  | .openBrace :: .num n :: ts =>
    match byteOf n, braceTail ts with
    | some b, some (bs, rest) => some (.bytes (b :: bs), rest)
    | _, _ => none
  | ts => some (.absent, ts)

/-- One input of the brackets, over the levels held so far (R89, `10_state.md` R44). R89 writes the values as numbers; that a
character literal stands for its code here too is the model's choice (DESIGN CHOICE, log 26). -/
def setInput (inp : Inputs) (name : List Char) (v : Nat) : Option Inputs :=
  if name = "now".toList then some { inp with now := v }
  else if name = "btn_raw".toList then if v < 2 then some { inp with btnRaw := v == 1 } else none
  else if name = "tx_ready".toList then if v < 2 then some { inp with txReady := v == 1 } else none
  else none

/-- The inputs in square brackets after the first name; the line ends with the closing bracket. Of two settings of one input
the later counts (log 26). -/
def parseInputs (inp : Inputs) : List Tok → Option Inputs
  | [.word name, .equals, .num v, .closeBracket] => setInput inp name v
  | .word name :: .equals :: .num v :: .comma :: ts =>
    match setInput inp name v with
    | some inp' => parseInputs inp' ts
    | none => none
  | _ => none

/-- The end of a line: nothing, or the inputs of the step; an input not named keeps its level (log 21). R89 speaks of the inputs
the step reads; that a line may set any input, whether or not its command reads it, is the model's choice (DESIGN CHOICE,
log 26). -/
def parseEnd (inp : Inputs) : List Tok → Option Inputs
  | [] => some inp
  | .openBracket :: ts => parseInputs inp ts
  | _ => none

/-- What a line says. -/
inductive AsmLine where
  | blank
  | command (i : Instr) (inp : Inputs)
  | pseudo (p : Pseudo) (inp : Inputs)
  | event (m : Move)
deriving DecidableEq, Repr

/-- The commands, by mnemonic and operand (R84, R89). -/
def commandOf (name : List Char) : Operand → Option Instr
  | .absent =>
    if name = "SYS_NOP".toList then some .sysNop
    else if name = "SYS_RUN".toList then some .sysRun
    else if name = "RB_POP".toList then some .rbPop
    else if name = "DB_SAMPLE".toList then some .dbSample
    else if name = "DB_EDGE".toList then some .dbEdge
    else if name = "SEG_PAGE".toList then some .segPage
    else if name = "SL_ADDR".toList then some .slAddr
    else if name = "SL_ENQ".toList then some .slEnq
    else if name = "SL_DRAIN1".toList then some .slDrain1
    else if name = "SL_LINE".toList then some .slLine
    else if name = "PG_STEP".toList then some .pgStep
    else if name = "EG_XFER".toList then some .egXfer
    else none
  | .byte b =>
    if name = "RB_PUSH".toList then some (.rbPush b)
    else if name = "SEG_ENC".toList then some (.segEnc b)
    else if name = "SEG_SHOW".toList then some (.segShow b)
    else none
  | .bytes bs =>
    if name = "RB_PUSHB".toList && payloadFits bs then some (.rbPushB bs)
    else if name = "RB_PUSHBS".toList && payloadFits bs then some (.rbPushBS bs)
    else none

/-- The pseudo-instructions, by name and operand (R89). R89 writes `RB_PUTS` with a string literal only; that it takes a brace
list too is the model's choice (DESIGN CHOICE, log 26). -/
def pseudoOf (name : List Char) : Operand → Option Pseudo
  | .absent =>
    if name = "SL_DRAIN".toList then some .slDrain
    else if name = "SL_ITER".toList then some .slIter
    else if name = "ITER".toList then some .iter
    else if name = "BOOT".toList then some .boot
    else none
  | .byte _ => none
  | .bytes bs => if name = "RB_PUTS".toList then some (.rbPuts bs) else none

/-- The environment events; `@DE_RET` returns the oldest address (R89, `93_implementation_defined.md` U7). -/
def eventOf (name : List Char) : Option Move :=
  if name = "@DE_START".toList then some .deStart
  else if name = "@DE_TAKE".toList then some .deTake
  else if name = "@DE_RET".toList then some (.deRet 0)
  else none

/-- A line of assembly, over the input levels held so far; none where it is no line of the syntax (R89). Log 26 lists the forms
on which R89 is silent and which are taken all the same. -/
def parseLine (inp : Inputs) (line : List Char) : Option AsmLine :=
  match lexLine (line.length + 1) line with
  | some [] => some .blank
  | some (.word name :: ts) =>
    match eventOf name, parseOperand ts with
    | some m, _ => if ts = [] then some (.event m) else none
    | none, some (op, rest) =>
      match parseEnd inp rest, commandOf name op, pseudoOf name op with
      | some inp', some i, _ => some (.command i inp')
      | some inp', none, some p => some (.pseudo p inp')
      | _, _, _ => none
    | none, none => none
  | _ => none

end Sys2Proof.Machine
end

