-- ==== Sys2Proof/Tests/Slice0.lean ====
section
/-! SUPPORT. Tests of one step each, with results taken from `95_test_vectors.md` or worked by hand from the rules named, and
a witness for the hypotheses of every obligation. -/

namespace Sys2Proof.Tests

open Sys2Proof Sys2Proof.Machine

/-! ### Helpers -/

/-- The next state, where there is one. -/
def after : Answer → Option State
  | .next t => some t
  | .fault _ => none
  | .refused _ => none

/-- A field of the next state. -/
def seen {α : Type} (f : State → α) (a : Answer) : Option α := (after a).map f

/-- The reset state with this ring buffer. -/
def withRing (buf : List Host.Cell) (head tail : Nat) : State :=
  { State.reset with ring := { buf := buf, head := head, tail := tail } }

/-- The reset state with another ring size. -/
def sized (n : Nat) : State := { State.reset with cfg := { Config.default with rbSize := n } }

/-- The reset state at this page and line. -/
def at_ (page line : Nat) : State := { State.reset with page := page, line := line }

/-- The inputs of a step. -/
def inputs (now : Nat) (btnRaw txReady : Bool) : Inputs := { now := now, btnRaw := btnRaw, txReady := txReady }

/-- What is compared after a ring command: the result, `head` and `tail`. -/
def ringView (t : State) : Option Result × Nat × Nat := (t.out.res, t.ring.head, t.ring.tail)

/-- What is compared after a sample: the register, `stable` and `t_last`. -/
def sampleView (t : State) : Bool × Bool × Bool × Bool × Nat := (t.s0, t.s1, t.s2, t.stable, t.tLast)

/-- The configuration of program P4: eight slots on `valid`. -/
def roomy : Config := { Config.default with validDepth := 8 }

/-- Program P3 after step 17 and `@DE_START`: the sequencer is held at phase 5. -/
def heldState : State :=
  { State.reset with
    run := true, phase := 5, held := true, page := 0, line := 1, slAddr := 0x1008
    valid := [0x1000], validLog := [0x1000], deStarted := true, segOut := 0xF9, inp := inputs 200 true true }

/-! ### Well-formed instructions -/

theorem test_wellFormed_255 : WellFormed (.rbPushB (List.replicate 255 0x41)) := by decide +kernel
theorem test_wellFormed_refuses_256 : ¬ WellFormed (.rbPushB (List.replicate 256 0x41)) := by decide +kernel
theorem test_wellFormed_refuses_256_sentinel : ¬ WellFormed (.rbPushBS (List.replicate 256 0x00)) := by
  decide +kernel

/-! ### Decoding, from the bits of R81, R82 and R84 -/

theorem test_decode_sysNop : decode [0b0000_0000_00000000] = .ok (.sysNop, []) := by decide
theorem test_decode_sysRun : decode [0b0000_0001_00000000] = .ok (.sysRun, []) := by decide
theorem test_decode_rbPush : decode [0b0001_0000_11000011] = .ok (.rbPush 0xC3, []) := by decide
theorem test_decode_rbPop : decode [0b0001_0001_00000000, 0x2000] = .ok (.rbPop, [0x2000]) := by decide
theorem test_decode_rbPushB :
    decode [0b0001_0010_00000011, 0b00000000_00000001, 0b00000000_10000000, 0b00000000_00000000] =
      .ok (.rbPushB [0x01, 0x80, 0x00], []) := by decide
theorem test_decode_rbPushBS :
    decode [0b0001_0011_00000001, 0b00000000_11111111, 0x6000] = .ok (.rbPushBS [0xFF], [0x6000]) := by decide
theorem test_decode_dbSample : decode [0b0010_0000_00000000] = .ok (.dbSample, []) := by decide
theorem test_decode_dbEdge : decode [0b0010_0001_00000000] = .ok (.dbEdge, []) := by decide
theorem test_decode_segEnc : decode [0b0011_0000_10000001] = .ok (.segEnc 0x81, []) := by decide
theorem test_decode_segShow : decode [0b0011_0001_00001001] = .ok (.segShow 9, []) := by decide
theorem test_decode_segPage : decode [0b0011_0010_00000000] = .ok (.segPage, []) := by decide
theorem test_decode_slAddr : decode [0b0100_0000_00000000] = .ok (.slAddr, []) := by decide
theorem test_decode_slEnq : decode [0b0100_0001_00000000] = .ok (.slEnq, []) := by decide
theorem test_decode_slDrain1 : decode [0b0100_0010_00000000] = .ok (.slDrain1, []) := by decide
theorem test_decode_slLine : decode [0b0100_0011_00000000] = .ok (.slLine, []) := by decide
theorem test_decode_pgStep : decode [0b0101_0000_00000000] = .ok (.pgStep, []) := by decide
theorem test_decode_egXfer : decode [0b0110_0000_00000000] = .ok (.egXfer, []) := by decide

/-- V-SEG, V-RB-6 and their neighbours (R86): refused, each for its reason. -/
theorem test_decode_refuses :
    decode [0x3201] = .error .nonzeroImmediate ∧ decode [0x6100] = .error .unassignedFunc ∧
      decode [0xFFFF] = .error .unassignedUnit ∧ decode [0x1301, 0x8041] = .error .payloadHighByte ∧
      decode [0x1302, 0x0041] = .error .incompletePacket ∧ decode [] = .error .noWord := by decide

/-- The numbering of the opcode table: operand words of zeros above the table's bits (R82). -/
theorem test_decodeTableWord :
    decodeTableWord 16 0x1203 = some (.rbPushB [0, 0, 0]) ∧ decodeTableWord 16 0x1300 = some (.rbPushBS []) ∧
      decodeTableWord 32 0x00411201 = some (.rbPushB [0x41]) ∧ decodeTableWord 16 0x4300 = some .slLine ∧
      decodeTableWord 16 0x5001 = none := by decide

/-! ### One step of each command -/

/-- R183. -/
theorem test_sysNop : seen (fun t => (t.out.res, t.run)) (exec .sysNop State.reset) = some (some {}, false) := by decide

/-- R184. -/
theorem test_sysRun :
    seen (fun t => (t.run, t.phase)) (exec .sysRun { State.reset with phase := 3 }) = some (true, 0) := by decide

/-- S1, row 4: the full buffer drops the byte. -/
theorem test_rbPush_full :
    seen ringView (exec (.rbPush 0x64) (withRing [(0, 0x61), (1, 0x62), (2, 0x63)] 3 0)) =
      some (some { ok := false }, 3, 0) := by decide

/-- S1, row 6: `head` wraps. -/
theorem test_rbPush_wraps :
    seen (fun t => (t.ring, t.out.res)) (exec (.rbPush 0x64) (withRing [(0, 0x61), (1, 0x62), (2, 0x63)] 3 1)) =
      some ({ buf := [(0, 0x61), (1, 0x62), (2, 0x63), (3, 0x64)], head := 0, tail := 1 }, some { ok := true }) := by
  decide

/-- S1, row 5. -/
theorem test_rbPop :
    seen ringView (exec .rbPop (withRing [(0, 0x61), (1, 0x62), (2, 0x63)] 3 0)) =
      some (some { ok := true, data := 0x61 }, 3, 1) := by decide

/-- S1, row 10, with another `POP_DEFAULT` (D9). -/
theorem test_rbPop_empty :
    seen ringView (exec .rbPop { State.reset with cfg := { Config.default with popDefault := 0x3F } }) =
      some (some { ok := false, data := 0x3F }, 0, 0) := by decide

/-- V-RB-5: one byte fits. -/
theorem test_rbPushB_partial :
    seen (fun t => (ringView t, memRead t.ring.buf 1)) (exec (.rbPushB [0x01, 0x02, 0x03]) (withRing [] 1 3)) =
      some ((some { count := 1 }, 2, 3), 0x01) := by decide

/-- V-RB-4, third row: without the sentinel rule a zero byte is a byte. -/
theorem test_rbPushB_zero :
    seen (fun t => (ringView t, t.live)) (exec (.rbPushB [0x00, 0x41]) (sized 8)) =
      some ((some { count := 2 }, 2, 0), [0x00, 0x41]) := by decide

/-- V-RB-4, fifth row: the sentinel stops the push. -/
theorem test_rbPushBS_sentinel :
    seen (fun t => (ringView t, t.live)) (exec (.rbPushBS [0x68, 0x69, 0x00, 0x78, 0x78]) (sized 8)) =
      some ((some { count := 2 }, 2, 0), [0x68, 0x69]) := by decide

/-- V-RB-4, last row: the full buffer stops the push. -/
theorem test_rbPushBS_full :
    seen (fun t => (ringView t, t.live)) (exec (.rbPushBS [0x41, 0x42, 0x43, 0x44, 0x00]) State.reset) =
      some ((some { count := 3 }, 3, 0), [0x41, 0x42, 0x43]) := by decide

/-- V-DB-2, first half: 9999 ticks across the wrap are too few. -/
theorem test_dbSample_gate :
    seen sampleView (exec .dbSample { State.reset with tLast := 0xFFFFF000, inp := inputs 0x170F false false }) =
      some (false, false, false, false, 0xFFFFF000) := by decide

/-- V-DB-2, second half, with S3 row 6: the third pressed sample sets `stable`. -/
theorem test_dbSample_third :
    seen sampleView
        (exec .dbSample
          { State.reset with tLast := 0xFFFFF000, s0 := true, s1 := true, inp := inputs 0x1710 false false }) =
      some (true, true, true, true, 0x1710) := by decide

/-- V-DB-4, all four cases. -/
theorem test_dbEdge :
    ∀ prev stable : Bool,
      seen (fun t => (t.edge, t.prev, t.out.res)) (exec .dbEdge { State.reset with prev := prev, stable := stable }) =
        some (decide (prev = false ∧ stable = true), stable,
          some { edge := decide (prev = false ∧ stable = true) }) := by decide

/-- V-SEG: the last digit of the table and the first value after it; the lines stay as they were. -/
theorem test_segEnc :
    seen (fun t => (t.result.data, t.segOut)) (exec (.segEnc 9) { State.reset with segOut := 0x80 }) =
        some (0x90, 0x80) ∧
      seen (fun t => (t.result.data, t.segOut)) (exec (.segEnc 10) { State.reset with segOut := 0x80 }) =
        some (0xFF, 0x80) := by decide

/-- V-SEG. -/
theorem test_segShow :
    seen (fun t => (t.result.data, t.segOut)) (exec (.segShow 8) State.reset) = some (0x80, 0x80) ∧
      seen (fun t => (t.result.data, t.segOut)) (exec (.segShow 200) { State.reset with segOut := 0x80 }) =
        some (0xFF, 0xFF) := by decide

/-- V-SEG: the digit is the page plus one; from page 9 on it is blank. -/
theorem test_segPage :
    seen (fun t => (t.result.data, t.segOut)) (exec .segPage (at_ 8 0)) = some (0x90, 0x90) ∧
      seen (fun t => (t.result.data, t.segOut)) (exec .segPage { at_ 9 0 with segOut := 0x90 }) =
        some (0xFF, 0xFF) := by decide

/-- V-SL: page 1, line 2. -/
theorem test_slAddr :
    seen (fun t => (t.slAddr, t.result.addr)) (exec .slAddr (at_ 1 2)) = some (0x1028, 0x1028) := by decide

/-- V-SL, queue vectors, second step. -/
theorem test_slEnq :
    seen (fun t => (t.valid, t.validLog, t.out.res)) (exec .slEnq { State.reset with slAddr := 0x1000 }) =
      some ([0x1000], [0x1000], some { ok := true, addr := 0x1000 }) := by decide

/-- V-SL, queue vectors, third step: the second one holds. -/
theorem test_slEnq_holds :
    seen (fun t => (t.valid, t.validLog, t.held, t.cmdReady, t.out.res))
        (exec .slEnq { State.reset with slAddr := 0x1000, valid := [0x1000], validLog := [0x1000] }) =
      some ([0x1000], [0x1000], true, false, none) := by decide

/-- V-SL, queue vectors: the oldest address leaves first. -/
theorem test_slDrain1 :
    seen (fun t => (t.free, t.out.res)) (exec .slDrain1 { State.reset with free := [0x1000, 0x1008] }) =
      some ([0x1008], some { ok := true, addr := 0x1000 }) := by decide

/-- V-SL, queue vectors, last step. -/
theorem test_slDrain1_empty : seen (fun t => (t.free, t.out.res)) (exec .slDrain1 State.reset) =
    some ([], some { ok := false }) := by decide

/-- V-SL: `SL_LINE` with `FRAME_HEIGHT` = 3. -/
theorem test_slLine :
    seen (fun t => t.line) (exec .slLine (at_ 0 1)) = some 2 ∧ seen (fun t => t.line) (exec .slLine (at_ 0 2)) = some 0 := by
  decide

/-- V-PG, third row: the page wraps. -/
theorem test_pgStep :
    seen (fun t => (t.page, t.segOut, t.edge)) (exec .pgStep { at_ 1 0 with edge := true, segOut := 0xA4 }) =
      some (0, 0xF9, true) := by decide

/-- V-PG, first row: without an edge nothing happens, and the result is what the indicator shows. -/
theorem test_pgStep_none :
    seen (fun t => (t.page, t.segOut, t.result.data)) (exec .pgStep { at_ 0 0 with segOut := 0xF9 }) =
      some (0, 0xF9, 0xF9) := by decide

/-- V-PG, `EG_XFER`, first row. -/
theorem test_egXfer_not_ready :
    seen (fun t => (ringView t, t.txLog, t.out.tx)) (exec .egXfer (withRing [(0, 0x41), (1, 0x42)] 2 0)) =
      some ((some { ok := false }, 2, 0), [], none) := by decide

/-- V-PG, `EG_XFER`, third row. -/
theorem test_egXfer :
    seen (fun t => (ringView t, t.txLog, t.out.tx))
        (exec .egXfer { withRing [(0, 0x41), (1, 0x42)] 2 1 with inp := inputs 0 true true, txLog := [0x41] }) =
      some ((some { ok := true, data := 0x42 }, 2, 2), [0x41, 0x42], some 0x42) := by decide

/-! ### One step of the machine -/

/-- The instruction placed by `withFetchWord` is the one the first step after reset runs. -/
theorem test_step_fetch :
    seen ringView (step (State.reset.withFetchWord 16 0x1041)) = some (some { ok := true }, 1, 0) ∧
      seen (fun t => t.run) (step (State.reset.withFetchWord 16 0x0100)) = some true ∧
      seen (fun t => t.result) (step (State.reset.withFetchWord 16 0x3201)) = some { illegal := true } := by decide

/-- V-PG, run-mode refusals: `RB_POP` is refused in place, `RB_PUSH 0x41` is accepted. -/
theorem test_step_run_mode :
    seen (fun t => (t.result, t.cmdIn, t.ring)) (step { State.reset with run := true, cmdIn := [0x1100, 0x1041] }) =
        some ({ illegal := true }, [0x1041], State.reset.ring) ∧
      seen ringView (step { State.reset with run := true, cmdIn := [0x1041] }) = some (some { ok := true }, 1, 0) := by
  decide

/-- P3, step 20: the held `SL_ENQ` completes after `DE_TAKE` and the phase goes on. -/
theorem test_step_held_completes :
    seen (fun t => (t.valid, t.phase, t.held)) (step { heldState with valid := [], deHeld := [0x1000] }) =
      some ([0x1008], 6, false) := by decide

/-- P3, steps 22 and 23: phase 6 repeats while an address was freed. -/
theorem test_step_drain_repeats :
    seen (fun t => (t.free, t.phase)) (step { State.reset with run := true, phase := 6, free := [0x1000] }) =
        some ([], 6) ∧
      seen (fun t => (t.free, t.phase)) (step { State.reset with run := true, phase := 6 }) = some ([], 7) := by decide

/-- P3, steps 19 and 21: the engine takes the front and returns what it holds. -/
theorem test_step_engine :
    seen (fun t => (t.valid, t.deHeld)) (step { heldState with sched := [.deTake] }) = some ([], [0x1000]) ∧
      seen (fun t => (t.deHeld, t.free)) (step { heldState with deHeld := [0x1000, 0x1010], sched := [.deRet 1] }) =
        some ([0x1000], [0x1010]) := by decide

/-- R220: reset clears the registers and leaves the parameters; the ring array may hold anything. -/
theorem test_step_reset :
    seen (fun t => (t.run, t.held, t.segOut, t.valid, memRead t.ring.buf 1))
        (step { heldState with sched := [.rst [0x00, 0x55]] }) =
      some (false, false, 0xFF, [], 0x55) := by decide

/-- R89: a command line with the inputs of its step, a comment, an event. -/
theorem test_parseLine :
    parseLine State.reset.inp "DB_SAMPLE [now=10000, btn_raw=0]".toList =
        some (.command .dbSample (inputs 10000 false false)) ∧
      parseLine State.reset.inp "RB_PUSH 0x41 ; text".toList = some (.command (.rbPush 0x41) State.reset.inp) ∧
      parseLine State.reset.inp "@DE_TAKE".toList = some (.event .deTake) ∧
      parseLine State.reset.inp "RB_PUSH 256".toList = none := by decide

/-- R89: C escapes, octal, hexadecimal and simple; a value over one byte is refused. The backslash is character 92. -/
theorem test_escapes :
    let bs := Char.ofNat 92
    literalByte (bs :: "012A".toList) = some (0x0A, ['A']) ∧ literalByte (bs :: "0".toList) = some (0x00, []) ∧
      literalByte (bs :: "0015".toList) = some (0x01, ['5']) ∧ literalByte [bs, '8'] = none ∧
      literalByte (bs :: "x9".toList) = some (0x09, []) ∧ literalByte (bs :: "x0041g".toList) = some (0x41, ['g']) ∧
      literalByte [bs, '?'] = some (0x3F, []) ∧ literalByte (bs :: "400".toList) = none ∧
      literalByte (bs :: "xg".toList) = none ∧ literalByte (bs :: "u00e9".toList) = some (0xE9, []) := by decide

/-- R82, R89: 255 characters and the sentinel are two packets, of 256 and 2 words. -/
theorem test_rbPuts_packets :
    ((Pseudo.rbPuts (List.replicate 255 0x41)).expand Config.default 0).map (fun i => (encode i).length) = [256, 2] := by
  decide +kernel

/-- R82, R103: a full buffer stops the first packet, and the second is not attempted. -/
theorem test_rbPuts_stops :
    seen (fun t => t.result.count) (execPseudo (.rbPuts (List.replicate 256 0x41)) State.reset) =
      some (BitVec.ofNat 8 (Config.default.rbSize - 1)) := by decide +kernel

/-! ### A state of the invariant -/

theorem heldState_inv : heldState.Inv := by
  constructor <;> first | decide | (unfold addrsFit; decide)

/-- It stays one whatever moves are scheduled. -/
theorem heldState_inv_sched (moves : List Move) : ({ heldState with sched := moves } : State).Inv :=
  { heldState_inv with }

theorem heldState_accounted : heldState.HandoffAccounted := ⟨[], rfl, fun _ => Nat.le_refl _⟩

/-! ### Witnesses of the obligations' hypotheses, in the obligations' order -/

theorem witness_DecodeOfEncode :
    WellFormed (.rbPushBS [0x3E, 0x00]) ∧ WellFormed (.rbPushB (List.replicate 255 0xFF)) ∧ WellFormed .egXfer := by
  decide +kernel

theorem witness_EncodeOfDecode : decode [0x1301, 0x00FF, 0x6000] = .ok (.rbPushBS [0xFF], [0x6000]) := by decide

theorem witness_OpcodeRowsDoNotOverlap : (0x10FF : Word) &&& 0xFF00 = 0x1000 := by decide

/-- One word or packet on each side of each class. -/
theorem witness_IllegalEncodingsClassified :
    ((unitOf 0x7000).toNat = 7 ∧ (unitOf 0x6000).toNat = 6) ∧
      ((unitOf 0x1400).toNat = 1 ∧ (funcOf 0x1400).toNat = 4) ∧
      ((unitOf 0x1101).toNat = 1 ∧ (funcOf 0x1101).toNat = 1 ∧ immOf 0x1101 ≠ 0) ∧
      (immOf 0x12FF).toNat = 255 ∧ highByteOf 0x0100 ≠ 0 := by decide

/-- The port takes any command with `run` = 0, and a push with `run` = 1. -/
theorem witness_StepRunsHostCommand :
    (let s := { State.reset with sched := [.host (inputs 1 true true)], cmdIn := [0x1100] };
      configOk s.cfg = true ∧ s.held = false ∧ decode s.cmdIn = .ok (.rbPop, []) ∧ s.run = false) ∧
      (let s := { State.reset with sched := [.host (inputs 1 true true)], cmdIn := [0x1041], run := true };
        configOk s.cfg = true ∧ s.held = false ∧ decode s.cmdIn = .ok (.rbPush 0x41, []) ∧ s.run = true ∧
          Instr.isPush (.rbPush 0x41) = true) := by decide

/-- Phase 5 with a full queue and with room, phase 6 with and without a free address, `run` = 0. -/
theorem witness_StepRunsSequencer :
    (configOk heldState.cfg = true ∧ heldState.run = true ∧ heldState.phase = 5 ∧
      heldState.valid.length = heldState.cfg.validDepth) ∧
      (let s := { heldState with valid := [] }; s.valid.length ≤ s.cfg.validDepth ∧ s.valid.length ≠ s.cfg.validDepth) ∧
      (let s := { State.reset with run := true, phase := 6, free := [0x1000] };
        s.valid.length ≤ s.cfg.validDepth ∧ s.run = true ∧ s.free ≠ []) ∧
      (State.reset.run = false ∧ State.reset.held = false) ∧
      ({ heldState with sched := [.cl (inputs 3 true true)] } : State).sched = .cl (inputs 3 true true) :: [] := by decide

/-- An illegal word, an illegal packet, a legal command in the wrong mode. -/
theorem witness_IllegalCommandRefusedInPlace :
    (let s := { State.reset with sched := [.host (inputs 0 true true)], cmdIn := [0x1101, 0x2000] };
      configOk s.cfg = true ∧ s.held = false ∧ decode s.cmdIn = .error .nonzeroImmediate) ∧
      decode [0x1202, 0x0141, 0x0042] = .error .payloadHighByte ∧
      (let s := { State.reset with sched := [.host (inputs 0 true true)], cmdIn := [0x1100], run := true };
        s.held = false ∧ decode s.cmdIn = .ok (.rbPop, []) ∧ s.run = true ∧ Instr.rbPop.isPush = false) := by decide

theorem witness_HeldPortAcceptsNothing :
    let s := { heldState with sched := [.host (inputs 0 true true)], cmdIn := [0x1041] }
    configOk s.cfg = true ∧ s.sched = .host (inputs 0 true true) :: [] ∧ s.held = true := by decide

/-- A full buffer, and room with `head` at the last slot. -/
theorem witness_PushStoresAtHead :
    (let s := withRing [(0, 0x61)] 3 0;
      s.ring.head < s.cfg.rbSize ∧ s.ring.tail < s.cfg.rbSize ∧ Memory.wf s.ring.buf = true ∧
        (s.ring.head + 1) % s.cfg.rbSize = s.ring.tail) ∧
      (let s := withRing [(0, 0x61)] 3 1;
        s.ring.head < s.cfg.rbSize ∧ s.ring.tail < s.cfg.rbSize ∧ Memory.wf s.ring.buf = true ∧
          (s.ring.head + 1) % s.cfg.rbSize ≠ s.ring.tail) := by decide

theorem witness_PopTakesAtTail :
    (let s := withRing [] 3 3;
      s.ring.head < s.cfg.rbSize ∧ s.ring.tail < s.cfg.rbSize ∧ s.ring.head = s.ring.tail) ∧
      (let s := withRing [(3, 0x64)] 0 3;
        s.ring.head < s.cfg.rbSize ∧ s.ring.tail < s.cfg.rbSize ∧ s.ring.head ≠ s.ring.tail) := by decide

theorem witness_BulkPushEnqueuesWhatFits :
    let s := withRing [] 1 3
    [(0x01 : Byte), 0x02, 0x03].length ≤ 255 ∧ s.ring.head < s.cfg.rbSize ∧ s.ring.tail < s.cfg.rbSize ∧
      Memory.wf s.ring.buf = true := by decide

theorem witness_BulkPushStopsBeforeSentinel :
    let s := withRing [(2, 0x41)] 3 2
    [(0x01 : Byte), 0x00, 0x03].length ≤ 255 ∧ s.cfg.sentinelEnqueued = false ∧ s.ring.head < s.cfg.rbSize ∧
      s.ring.tail < s.cfg.rbSize ∧ Memory.wf s.ring.buf = true := by decide

theorem witness_BulkPushMayEnqueueSentinel :
    let s := { withRing [(2, 0x41)] 3 2 with cfg := { Config.default with sentinelEnqueued := true } }
    [(0x01 : Byte), 0x00, 0x03].length ≤ 255 ∧ s.cfg.sentinelEnqueued = true ∧ s.ring.head < s.cfg.rbSize ∧
      s.ring.tail < s.cfg.rbSize ∧ Memory.wf s.ring.buf = true := by decide

theorem witness_RingTrafficIsFifo :
    let s := withRing [(3, 0x61)] 0 3
    (∀ i ∈ [Instr.rbPush 0x62, .rbPushBS [0x63, 0x00], .rbPop, .egXfer], WellFormed i) ∧
      s.ring.inRange s.cfg.rbSize = true ∧ Memory.wf s.ring.buf = true := by decide

/-- An empty buffer on which a pop fails, and a full one on which a push fails. -/
theorem witness_FailuresSayEmptyAndFull :
    (State.reset.ring.inRange State.reset.cfg.rbSize = true ∧
      seen (fun t => t.result.ok) (exec .rbPop State.reset) = some false) ∧
      (let s := withRing [(0, 0x61), (1, 0x62), (2, 0x63)] 3 0;
        s.ring.inRange s.cfg.rbSize = true ∧ seen (fun t => t.result.ok) (exec (.rbPush 0x64) s) = some false) := by decide

theorem witness_StatusOutputsFollowCount :
    let s := withRing [] 0 1
    s.ring.head < s.cfg.rbSize ∧ s.ring.tail < s.cfg.rbSize := by decide

/-- Two rings that differ in a dead slot only. -/
theorem witness_DeadSlotsAreNotObservable :
    let s := withRing [(0, 0x61)] 1 0
    let buf : List Host.Cell := [(0, 0x61), (3, 0x99)]
    s.ring.inRange s.cfg.rbSize = true ∧ Memory.wf s.ring.buf = true ∧ Memory.wf buf = true ∧
      ({ s.ring with buf := buf } : Ring).live s.cfg.rbSize = s.live ∧ (after (exec .rbPop s)).isSome = true := by decide

/-- The gate exactly open, and one tick before, both across the wrap (V-DB-2). -/
theorem witness_SampleStep :
    (let s := { State.reset with tLast := 0xFFFFF000, inp := inputs 0x1710 false false };
      s.inp.now < 2 ^ s.cfg.timeW ∧ s.tLast < 2 ^ s.cfg.timeW ∧
        (10 * s.cfg.ticksPerMs : Nat) ≤ ((s.inp.now : Int) - s.tLast) % (2 ^ s.cfg.timeW : Nat)) ∧
      (let s := { State.reset with tLast := 0xFFFFF000, inp := inputs 0x170F false false };
        s.inp.now < 2 ^ s.cfg.timeW ∧ s.tLast < 2 ^ s.cfg.timeW ∧
          ((s.inp.now : Int) - s.tLast) % (2 ^ s.cfg.timeW : Nat) < (10 * s.cfg.ticksPerMs : Nat)) := by decide

theorem witness_EdgeStep :
    ∃ t u, exec .dbEdge { State.reset with stable := true } = .next t ∧ exec .dbEdge t = .next u := ⟨_, _, rfl, rfl⟩

/-- A rise and a fall of `stable`. -/
theorem witness_StableFlipsOnlyUnanimously :
    seen (fun t => t.stable)
        (exec .dbSample { State.reset with s0 := true, s1 := true, inp := inputs 10000 false false }) = some true ∧
      seen (fun t => t.stable)
        (exec .dbSample { State.reset with s2 := true, stable := true, inp := inputs 10000 true false }) = some false := by
  decide

theorem witness_ThreeAgreeingSamplesDecide :
    ∃ t u w,
      exec .dbSample { State.reset with inp := inputs 10000 false false } = .next t ∧
      exec .dbSample { t with inp := inputs 20000 false false } = .next u ∧
      exec .dbSample { u with inp := inputs 30000 false false } = .next w ∧
      ({ State.reset with inp := inputs 10000 false false } : State).gatePasses = true ∧
      ({ t with inp := inputs 20000 false false } : State).gatePasses = true ∧
      ({ u with inp := inputs 30000 false false } : State).gatePasses = true ∧
      logicalSample State.reset.cfg.btnActiveLow false = true :=
  ⟨_, _, _, rfl, rfl, rfl, by decide, by decide, by decide, by decide⟩

theorem witness_OneEdgePerRise :
    State.reset.prev = State.reset.stable ∧
      (let s := { State.reset with prev := true, stable := true }; s.prev = s.stable) := by decide

theorem witness_EncoderIsTheTable :
    configOk State.reset.cfg = true ∧ (9 : Byte).toNat ≤ 9 ∧ 10 ≤ (10 : Byte).toNat := by decide

theorem witness_DecimalPointAlwaysOff : configOk Config.default = true := by decide

/-- The sequencer at `PG_STEP` with an edge, the indicator showing page 1. -/
theorem witness_IndicatorKeepsShowingPage :
    let s := { at_ 1 0 with run := true, phase := 2, edge := true, segOut := 0xA4 }
    s.run = true ∧ s.segOut = seg s.cfg (digitOf s.page) ∧ s.noReset = true ∧ seen (fun t => t.page) (step s) = some 0 := by
  decide

theorem witness_ScanAddressLatched :
    let s := at_ 1 2
    configOk s.cfg = true ∧ 1 ≤ s.cfg.addrScale ∧ s.page < s.cfg.pageNum ∧ s.line < s.cfg.frameHeight := by decide

theorem witness_ScanAddrIsMonotone :
    let c := Config.default
    configOk c = true ∧ 1 ≤ c.addrScale ∧ 1 < c.pageNum ∧ 2 < c.frameHeight ∧ 0 * c.frameHeight + 2 < 1 * c.frameHeight + 0 := by
  decide

theorem witness_EnqueueAppendsOrHolds :
    (State.reset.valid.length ≤ State.reset.cfg.validDepth ∧ State.reset.valid.length ≠ State.reset.cfg.validDepth) ∧
      heldState.valid.length = heldState.cfg.validDepth := by decide

theorem witness_DrainTakesTheFront :
    State.reset.free = [] ∧ ({ State.reset with free := [0x1000] } : State).free = 0x1000 :: [] := by decide

theorem witness_LineAdvancesWithWrap : (at_ 0 2).line < (at_ 0 2).cfg.frameHeight := by decide

theorem witness_DrainLoopEmptiesFree : ({ State.reset with free := [0x1000, 0x1008] } : State).held = false := by decide

theorem witness_SweepIsRowMajor :
    let s := { at_ 1 2 with cfg := roomy }
    configOk s.cfg = true ∧ 1 ≤ s.cfg.addrScale ∧ s.page < s.cfg.pageNum ∧ s.line < s.cfg.frameHeight ∧ s.held = false ∧
      s.valid.length + 4 ≤ s.cfg.validDepth := by decide

/-- The sequencer about to latch, and holding what it latched. -/
theorem witness_LatchStaysCurrent :
    (({ at_ 1 2 with run := true, phase := 4 } : State).LatchIsCurrent ∧
      seen (fun t => (t.phase, t.slAddr)) (step { at_ 1 2 with run := true, phase := 4 }) = some (5, 0x1028)) ∧
      heldState.LatchIsCurrent ∧ seen (fun t => t.phase) (step heldState) = some 5 := by
  refine ⟨⟨?_, by decide⟩, ?_, by decide⟩ <;> (unfold State.LatchIsCurrent; decide)

/-- Each engine step enabled, and each not enabled for each of its reasons. -/
theorem witness_EngineMoves :
    configOk heldState.cfg = true ∧
      (State.reset.deStarted = false ∧ 1 ≤ ({ State.reset with valid := [0x1000] } : State).valid.length) ∧
      (heldState.deStarted = true ∧ heldState.valid = 0x1000 :: []) ∧ State.reset.valid = [] ∧
      (let s := { heldState with deHeld := [0x1000, 0x1010] };
        s.free.length < s.cfg.freeDepth ∧ s.deHeld[3 % s.deHeld.length]? = some 0x1010) ∧
      (let s := { heldState with free := [0x1000, 0x1008] }; s.cfg.freeDepth ≤ s.free.length) ∧ heldState.deHeld = [] := by
  decide

theorem witness_HandoffStaysAccounted :
    heldState.HandoffAccounted ∧ (after (step { heldState with sched := [.deTake] })).isSome = true :=
  ⟨heldState_accounted, by decide⟩

theorem witness_TakeLiftsHeldEnqueue :
    let s := { heldState with sched := [.deTake, .cl (inputs 300 true true)] }
    s.Inv ∧ s.held = true ∧ s.deStarted = true ∧ s.valid = 0x1000 :: [] ∧
      s.sched = .deTake :: .cl (inputs 300 true true) :: [] :=
  ⟨heldState_inv_sched _, rfl, rfl, rfl, rfl⟩

/-- The held enqueue going on, and the engine making room. -/
theorem witness_HoldIsLiftedOnlyByTake :
    (let s := { heldState with valid := [] };
      s.noReset = true ∧ s.held = true ∧ seen (fun t => t.held) (step s) = some false) ∧
      (let s := { heldState with sched := [.deTake] };
        s.noReset = true ∧ s.valid.length = 1 ∧ seen (fun t => t.valid.length) (step s) = some 0) := by decide

theorem witness_PageStep :
    (at_ 1 0).page < (at_ 1 0).cfg.pageNum ∧ ({ at_ 1 0 with edge := true } : State).edge = true ∧
      (at_ 1 0).edge = false := by decide

theorem witness_PageAfterEdges :
    let s := { at_ 1 0 with edge := true }
    s.page < s.cfg.pageNum ∧ s.edge = true ∧ s.held = false := by decide

theorem witness_EgressSendsOneByte :
    (let s := { withRing [(3, 0x0A)] 0 3 with inp := inputs 0 true true };
      s.ring.head < s.cfg.rbSize ∧ s.ring.tail < s.cfg.rbSize ∧ s.inp.txReady = true ∧ s.ring.head ≠ s.ring.tail) ∧
      State.reset.inp.txReady = false ∧ State.reset.ring.head = State.reset.ring.tail := by decide

/-- The sequencer at `EG_XFER` with a byte to send. -/
theorem witness_SerialWritesOnlyWhenReady :
    let s := { withRing [(0, 0x3E)] 1 0 with run := true, phase := 3, inp := inputs 100 true true }
    s.Inv ∧ s.noReset = true ∧ seen (fun t => t.out.tx) (step s) = some (some 0x3E) := by
  refine ⟨?_, by decide, by decide⟩
  constructor <;> first | decide | (unfold addrsFit; decide)

theorem witness_SequencerPassIsIter :
    let s : State := { State.reset with
      run := true, free := [0x1000], sched := List.replicate (8 + 1) (.cl (inputs 10000 false true)) ++ [.deStart] }
    configOk s.cfg = true ∧ s.run = true ∧ s.phase = 0 ∧ s.held = false ∧ s.valid.length < s.cfg.validDepth ∧
      s.sched = List.replicate (8 + s.free.length) (.cl (inputs 10000 false true)) ++ [.deStart] := by decide

/-- An iteration with an edge, and one without. -/
theorem witness_IterationEnqueuesTheNewPage :
    (let s := { at_ 1 2 with s0 := true, s1 := true, inp := inputs 10000 false true };
      configOk s.cfg = true ∧ 1 ≤ s.cfg.addrScale ∧ s.page < s.cfg.pageNum ∧ s.line < s.cfg.frameHeight ∧
        s.ring.head < s.cfg.rbSize ∧ s.ring.tail < s.cfg.rbSize ∧ s.held = false ∧ s.valid.length < s.cfg.validDepth ∧
        seen (fun t => (t.edge, t.page)) (execPseudo .iter s) = some (true, 0)) ∧
      seen (fun t => (t.edge, t.page)) (execPseudo .iter (at_ 1 2)) = some (false, 1) := by decide

theorem witness_OnlyTheTablesWritersWrite : ∃ t, exec .pgStep { at_ 0 0 with edge := true } = .next t := ⟨_, rfl⟩

/-- A `SYS_RUN` from the port. -/
theorem witness_RunSetOnlyBySysRun :
    let s := { State.reset with cmdIn := [0x0100] }
    s.noReset = true ∧ s.run = false ∧ seen (fun t => t.run) (step s) = some true := by decide

/-- A configuration that breaks R8, and a step of a sound one. -/
theorem witness_ConfigCheckedAndConstant :
    configOk (sized 1).cfg = false ∧ configOk State.reset.cfg = true ∧ (after (step State.reset)).isSome = true := by decide

theorem witness_IndexWidthIsExact : (1 ≤ 3 ∧ 5 ≤ 2 ^ 3) ∧ indexWidth 5 = 3 ∧ indexWidth 4 = 2 ∧ indexWidth 1 = 1 := by
  decide

theorem witness_ResetStep :
    let s := { heldState with sched := [.rst [0x01, 0x02]] }
    configOk s.cfg = true ∧ s.sched = .rst [0x01, 0x02] :: [] := by decide

theorem witness_ResetMeetsInvariants :
    configOk Config.default = true ∧ [(0x00 : Byte), 0xAA, 0x00, 0x55].length ≤ Config.default.rbSize := by decide

theorem witness_StepKeepsInvariant :
    heldState.Inv ∧ (after (step heldState)).isSome = true := ⟨heldState_inv, by decide⟩

theorem witness_InvariantNeverStops : ({ heldState with sched := [.rst []] } : State).Inv := heldState_inv_sched _

theorem witness_BootSequence :
    configOk Config.default = true ∧ Config.default.sentinelEnqueued = false ∧
      [(0xAA : Byte)].length ≤ Config.default.rbSize := by decide

end Sys2Proof.Tests
end

section
/-! PROOFS. The family of `00_scope.md`: the sound configurations (O50), the index width (O51), the decimal point (O28), the
invariant kept by every step (O54), and that from it no step stops (O55). -/

namespace Sys2Proof.Machine

open Sys2Proof

variable {s t b : State} {cfg : Config} {n : Nat} {r : Ring}

/-! ### The configuration (R6 to R8, R46) -/

/-- The check of a configuration, constraint by constraint. -/
theorem configOk_iff (c : Config) : configOk c = true ↔
    2 ≤ c.rbSize ∧ 1 ≤ c.pageNum ∧ c.pageNum ≤ 255 ∧ 1 ≤ c.frameHeight ∧ 1 ≤ c.frameWidth ∧ c.imageBase % 2 = 0 ∧
    c.imageBase + c.addrScale * (c.pageNum * c.frameHeight * c.frameWidth) ≤ 2 ^ c.addrW ∧
    1 ≤ c.validDepth ∧ 1 ≤ c.freeDepth ∧ 10 * c.ticksPerMs < 2 ^ c.timeW ∧ c.segTable.length = 10 ∧
    (∀ b ∈ c.segTable, b.getLsbD 7 = true) ∧ c.identString.length ≤ 255 := by
  simp only [configOk, Bool.and_eq_true, decide_eq_true_eq, List.all_eq_true, and_assoc]
  exact Iff.rfl

theorem rbSize_pos (hc : configOk cfg = true) : 0 < cfg.rbSize := by
  obtain ⟨hn, _⟩ := (configOk_iff cfg).mp hc
  omega

theorem pageNum_pos (hc : configOk cfg = true) : 0 < cfg.pageNum := by
  obtain ⟨_, hp, _⟩ := (configOk_iff cfg).mp hc
  exact hp

theorem frameHeight_pos (hc : configOk cfg = true) : 0 < cfg.frameHeight := by
  obtain ⟨_, _, _, hf, _⟩ := (configOk_iff cfg).mp hc
  exact hf

theorem segTable_bit7 (hc : configOk cfg = true) {d : Byte} (hd : d ∈ cfg.segTable) : d.getLsbD 7 = true := by
  obtain ⟨_, _, _, _, _, _, _, _, _, _, _, htable, _⟩ := (configOk_iff cfg).mp hc
  exact htable d hd

theorem step_of_configOk (hc : configOk s.cfg = true) : step s = scheduledStep s := if_pos hc

theorem step_of_not_configOk (hc : configOk s.cfg = false) : step s = .refused .badConfiguration := by
  simp [step, hc]

theorem State.Before.cfg_eq (hb : s.Before b) : b.cfg = s.cfg := by rw [hb.1]

theorem ClMove.cfg_eq (h : ClMove s b t) : t.cfg = s.cfg := by
  cases h with
  | nothing ht => exact ht.cfg_eq
  | host i rest hb _ _ _ he => exact (exec_environment he).1.trans hb.cfg_eq
  | sequencer u hb _ he ht => rw [ht, advance_cfg, (exec_environment he).1, hb.cfg_eq]
  | retry hb _ _ he => exact (exec_environment he).1.trans hb.cfg_eq

theorem deStart_cfg (s : State) : (deStart s).cfg = s.cfg := by
  obtain e | ⟨_, _, e⟩ := deStart_cases s <;> rw [e]

theorem deTake_cfg (s : State) : (deTake s).cfg = s.cfg := by
  obtain e | ⟨_, _, _, _, e⟩ := deTake_cases s <;> rw [e]

theorem deRet_cfg (choice : Nat) (s : State) : (deRet choice s).cfg = s.cfg := by
  obtain e | ⟨_, _, _, _, e⟩ := deRet_cases choice s <;> rw [e]

/-- The parameters are not state (R46). -/
theorem step_cfg (h : step s = .next t) : t.cfg = s.cfg := by
  obtain ⟨_, hm⟩ := step_cases h
  cases hm with
  | cl b hcl => exact hcl.cfg_eq
  | deStart b hb ht => rw [ht, deStart_cfg, hb.cfg_eq]
  | deTake b hb ht => rw [ht, deTake_cfg, hb.cfg_eq]
  | deRet b choice hb ht => rw [ht, deRet_cfg, hb.cfg_eq]
  | rst b contents hb _ ht => rw [ht]; exact hb.cfg_eq

/-- Settles O50: the check unfolds to its constraints, and each move of a step leaves the parameters. -/
theorem configCheckedAndConstant : Obligations.ConfigCheckedAndConstant :=
  ⟨configOk_iff, fun _ => ⟨step_of_not_configOk, fun _ => step_cfg⟩⟩

/-! ### The index width (R7) -/

theorem indexWidth_pos (n : Nat) : 1 ≤ indexWidth n := by
  unfold indexWidth
  split <;> omega

/-- A width of at least 1 holds `n` values exactly when it is at least the index width. -/
theorem indexWidth_le_iff {w : Nat} (hw : 1 ≤ w) : indexWidth n ≤ w ↔ n ≤ 2 ^ w := by
  unfold indexWidth
  split
  · rename_i hn
    have two_le : 2 ^ 1 ≤ 2 ^ w := Nat.pow_le_pow_right (by decide) hw
    exact iff_of_true hw (by omega)
  · rename_i hn
    have log2_lt : Nat.log2 (n - 1) < w ↔ n - 1 < 2 ^ w := Nat.log2_lt (by omega)
    omega

/-- Settles O51, from the index width being the least width that holds `n` values. -/
theorem indexWidthIsExact : Obligations.IndexWidthIsExact := fun n =>
  ⟨indexWidth_pos n, (indexWidth_le_iff (indexWidth_pos n)).mp le_rfl, fun _ hw h => (indexWidth_le_iff hw).mpr h⟩

/-! ### The decimal point (`42_seven_segment.md` R136 to R138) -/

/-- Every pattern is one of the table's or the blank one. -/
theorem seg_cases (cfg : Config) (d : Byte) : seg cfg d ∈ cfg.segTable ∨ seg cfg d = segBlank := by
  unfold seg
  split
  · rw [List.getD_eq_getElem?_getD]
    cases hd : cfg.segTable[d.toNat]? with
    | none => exact .inr rfl
    | some p => exact .inl (List.mem_of_getElem? hd)
  · exact .inr rfl

/-- Settles O28: R8 asks bit 7 of every table entry, and the blank pattern has it too. -/
theorem decimalPointAlwaysOff : Obligations.DecimalPointAlwaysOff := by
  intro c d hc
  obtain hmem | hblank := seg_cases c d
  · exact segTable_bit7 hc hmem
  · rw [hblank]; decide

/-! ### What keeps the ring buffer within the invariant (`10_state.md` R21 to R23) -/

/-- The invariant's clauses about the ring buffer, of `n` slots. -/
def Ring.Sound (n : Nat) (r : Ring) : Prop :=
  Memory.wf r.buf = true ∧ memWithin n r.buf = true ∧ r.inRange n = true

theorem Ring.Sound.store (h : r.Sound n) (b : Byte) :
    ({ r with buf := memWrite r.buf r.head b, head := ringNext n r.head } : Ring).Sound n := by
  obtain ⟨hwf, hwithin, hrange⟩ := h
  have hhead : r.head < n := (Ring.inRange_iff.mp hrange).1
  exact ⟨memWrite_wf hwf _ b, memWrite_within hwithin hhead b, Ring.inRange_push _ hrange⟩

theorem Ring.Sound.push (h : r.Sound n) (b : Byte) : (r.push n b).1.Sound n := by
  obtain ⟨_, e⟩ | ⟨_, e⟩ := Ring.push_cases n b r <;> rw [e]
  · exact h
  · exact h.store b

theorem Ring.Sound.pop (h : r.Sound n) : ({ r with tail := ringNext n r.tail } : Ring).Sound n := by
  obtain ⟨hwf, hwithin, hrange⟩ := h
  exact ⟨hwf, hwithin, Ring.inRange_pop hrange⟩

theorem Ring.Sound.bulkPush (h : r.Sound cfg.rbSize) (stop : Bool) (bytes : List Byte) :
    (r.bulkPush cfg stop bytes).1.Sound cfg.rbSize :=
  Ring.bulkPush_keeps (P := Ring.Sound cfg.rbSize) (fun _ b hr _ => hr.store b) stop bytes h

/-! ### What keeps the counters and the queues within the invariant -/

theorem wrapInc_lt {i : Nat} (h : i < n) : wrapInc n i < n := by
  unfold wrapInc
  split <;> omega

theorem scanWord_lt (s : State) : s.scanWord < 2 ^ s.cfg.addrW := Nat.mod_lt _ (Nat.two_pow_pos _)

theorem addrsFit_snoc {w a : Nat} {q : List Nat} (hq : addrsFit w q) (ha : a < 2 ^ w) : addrsFit w (q ++ [a]) :=
  List.forall_mem_append.mpr ⟨hq, List.forall_mem_singleton.mpr ha⟩

theorem addrsFit_cons {w a : Nat} {q : List Nat} : addrsFit w (a :: q) ↔ a < 2 ^ w ∧ addrsFit w q :=
  List.forall_mem_cons

theorem addrsFit_eraseIdx {w : Nat} {q : List Nat} (hq : addrsFit w q) (k : Nat) : addrsFit w (q.eraseIdx k) :=
  fun a ha => hq a (List.mem_of_mem_eraseIdx ha)

theorem validFull_eq_false : s.validFull = false ↔ s.valid.length < s.cfg.validDepth := by simp [State.validFull]

theorem freeFull_eq_false : s.freeFull = false ↔ s.free.length < s.cfg.freeDepth := by simp [State.freeFull]

/-! ### The invariant under each update of the state -/

namespace State.Inv

theorem ringSound (h : s.Inv) : s.ring.Sound s.cfg.rbSize := ⟨h.bufWf, h.bufWithin, h.ringRange⟩

theorem withRing (h : s.Inv) (hr : r.Sound s.cfg.rbSize) : ({ s with ring := r } : State).Inv := by
  obtain ⟨hwf, hwithin, hrange⟩ := hr
  exact { h with bufWf := hwf, bufWithin := hwithin, ringRange := hrange }

theorem ret (h : s.Inv) (res : Result) : (s.ret res).Inv := { h with }

theorem display (h : s.Inv) (d : Byte) : (s.display d).Inv := { h with }

theorem send (h : s.Inv) (b : Byte) (hr : r.Sound s.cfg.rbSize) : (s.send b r).Inv := { h.withRing hr with }

theorem bulk (h : s.Inv) (stop : Bool) (bytes : List Byte) : (s.bulk stop bytes).Inv :=
  (h.withRing (h.ringSound.bulkPush stop bytes)).ret _

theorem takeSample (h : s.Inv) : s.takeSample.Inv := { h with tLastFits := h.nowFits }

/-- Drawing the inputs of a step, taking words from the port and clearing the outputs keep the invariant. -/
theorem before (h : s.Inv) (hb : s.Before b) : b.Inv := by
  obtain ⟨e, _, hnow⟩ := hb
  rw [e]
  exact { h with nowFits := hnow h.nowFits }

/-- The sequencer's move on keeps the invariant: held at phase 5, it stays there (`44_control_loop.md` R186). -/
theorem advance (h : s.Inv) : (s.advance s.phase).Inv :=
  { h with
    heldPhase := fun hrun hheld => by
      have hp : s.phase = 5 := h.heldPhase hrun hheld
      have hs : s.held = true := hheld
      simp [nextPhase, hp, hs] }

theorem applyReset (h : s.Inv) (contents : List Byte) : (s.applyReset contents).Inv where
  config := h.config
  bufWf := memOfBytes_wf _
  bufWithin := memOfBytes_within _ 0 _ ((Nat.zero_add _).trans_le (List.length_take_le _ _))
  ringRange := Ring.inRange_iff.mpr ⟨rbSize_pos h.config, rbSize_pos h.config⟩
  tLastFits := Nat.two_pow_pos _
  nowFits := h.nowFits
  pageRange := pageNum_pos h.config
  lineRange := frameHeight_pos h.config
  slAddrFits := Nat.two_pow_pos _
  validFits := List.forall_mem_nil _
  validDepth := Nat.zero_le _
  freeFits := List.forall_mem_nil _
  freeDepth := Nat.zero_le _
  deHeldFits := List.forall_mem_nil _
  validLogFits := List.forall_mem_nil _
  heldPhase := fun hrun => nomatch hrun
  gated := fun _ => ⟨rfl, rfl⟩

/-! ### The invariant under the engine's moves (`43_scanline_pipeline.md` R162 to R166) -/

theorem deStart (h : s.Inv) : (deStart s).Inv := by
  obtain e | ⟨_, _, e⟩ := deStart_cases s <;> rw [e]
  · exact h
  · exact { h with gated := fun hd => nomatch hd }

theorem deTake (h : s.Inv) : (deTake s).Inv := by
  obtain e | ⟨a, rest, hstarted, hvalid, e⟩ := deTake_cases s <;> rw [e]
  · exact h
  · obtain ⟨hfit, hfits⟩ := addrsFit_cons.mp (hvalid ▸ h.validFits)
    have hdepth := h.validDepth
    rw [hvalid, List.length_cons] at hdepth
    exact { h with
      validFits := hfits
      validDepth := Nat.le_of_succ_le hdepth
      deHeldFits := addrsFit_snoc h.deHeldFits hfit
      gated := fun hd => absurd (hstarted.symm.trans hd) (by decide) }

theorem deRet (h : s.Inv) (choice : Nat) : (deRet choice s).Inv := by
  obtain e | ⟨k, a, hheld, hroom, e⟩ := deRet_cases choice s <;> rw [e]
  · exact h
  · exact { h with
      freeFits := addrsFit_snoc h.freeFits (h.deHeldFits a (List.mem_of_getElem? hheld))
      freeDepth := by simpa using freeFull_eq_false.mp hroom
      deHeldFits := addrsFit_eraseIdx h.deHeldFits k
      gated := fun hd => by simp [(h.gated hd).1] at hheld }

/-! ### The invariant under the commands -/

/-- `SL_ENQ`, with CL not running or at phase 5, which is where a hold may be (R153, R186). -/
theorem slEnq (h : s.Inv) (hphase : s.run = true → s.phase = 5) (he : exec .slEnq s = .next t) : t.Inv := by
  cases hf : s.validFull with
  | true =>
    cases (exec_slEnq_hold hf).symm.trans he
    exact { h with heldPhase := fun hrun _ => hphase hrun }
  | false =>
    cases (exec_slEnq_room hf).symm.trans he
    exact { h with
      validFits := addrsFit_snoc h.validFits h.slAddrFits
      validDepth := by simpa using validFull_eq_false.mp hf
      validLogFits := addrsFit_snoc h.validLogFits h.slAddrFits
      heldPhase := fun _ hheld => nomatch hheld }

theorem slDrain1 (h : s.Inv) (he : exec .slDrain1 s = .next t) : t.Inv := by
  cases hf : s.free with
  | nil =>
    cases (exec_slDrain1_nil hf).symm.trans he
    exact h.ret _
  | cons a rest =>
    cases (exec_slDrain1_cons hf).symm.trans he
    have hdepth := h.freeDepth
    rw [hf, List.length_cons] at hdepth
    exact { h with
      freeFits := (addrsFit_cons.mp (hf ▸ h.freeFits)).2
      freeDepth := Nat.le_of_succ_le hdepth
      gated := fun hd => by simp [(h.gated hd).2] at hf }

theorem pgStep (h : s.Inv) (he : exec .pgStep s = .next t) : t.Inv := by
  cases hedge : s.edge with
  | false =>
    cases (exec_pgStep_none hedge).symm.trans he
    exact h.ret _
  | true =>
    cases (exec_pgStep_edge hedge).symm.trans he
    exact { h with pageRange := wrapInc_lt h.pageRange }

/-- Every command keeps the invariant, where `SL_ENQ` may hold and where `SYS_RUN` finds CL not held. -/
theorem exec {i : Instr} (h : s.Inv) (hphase : i = .slEnq → s.run = true → s.phase = 5)
    (hfree : i = .sysRun → s.held = false) (he : exec i s = .next t) : t.Inv := by
  cases i with
  | sysRun =>
    cases he
    exact { h with heldPhase := fun _ hheld => absurd ((hfree rfl).symm.trans hheld) (by decide) }
  | rbPush b =>
    obtain ⟨_, rfl⟩ := exec_rbPush_next.mp he
    exact (h.withRing (h.ringSound.push b)).ret _
  | rbPop =>
    obtain ⟨_, ⟨_, rfl⟩ | ⟨_, rfl⟩⟩ := exec_rbPop_next he
    · exact h.ret _
    · exact (h.withRing h.ringSound.pop).ret _
  | rbPushB bytes => obtain ⟨_, rfl⟩ := exec_rbPushB_next.mp he; exact h.bulk false bytes
  | rbPushBS bytes => obtain ⟨_, rfl⟩ := exec_rbPushBS_next.mp he; exact h.bulk true bytes
  | dbSample =>
    cases he
    refine State.Inv.ret ?_ _
    split
    · exact h.takeSample
    · exact h
  | slAddr => cases he; exact { h with slAddrFits := scanWord_lt s }
  | slLine => cases he; exact { h with lineRange := wrapInc_lt h.lineRange }
  | slEnq => exact h.slEnq (hphase rfl) he
  | slDrain1 => exact h.slDrain1 he
  | pgStep => exact h.pgStep he
  | egXfer =>
    obtain ⟨_, ⟨_, rfl⟩ | ⟨_, _, rfl⟩⟩ := exec_egXfer_next he
    · exact h.ret _
    · exact h.send _ h.ringSound.pop
  | segShow d => cases he; exact h.display d
  | segPage => cases he; exact h.display _
  | sysNop => cases he; exact h.ret _
  | segEnc d => cases he; exact h.ret _
  | dbEdge => cases he; exact { h with }

end State.Inv

/-! ### The invariant under a step -/

/-- The loop's enqueue stands at phase 5 and nowhere else (`44_control_loop.md` R185). -/
theorem loopInstr_eq_slEnq : ∀ p : BitVec 3, loopInstr p = .slEnq → p = 5 := by decide

theorem loopInstr_ne_sysRun : ∀ p : BitVec 3, loopInstr p ≠ .sysRun := by decide

/-- No command but `SYS_RUN` moves the sequencer. -/
theorem exec_phase {i : Instr} (hi : i ≠ .sysRun) (he : exec i s = .next t) : t.phase = s.phase := by
  have e : exec i s = mapNext (fun t => { t with sched := s.sched, phase := s.phase }) (exec i s) :=
    exec_elsewhere hi s s.sched s.phase s.out
  obtain ⟨u, _, rfl⟩ := mapNext_next (e.symm.trans he)
  rfl

theorem run_of_accepts_slEnq (h : s.accepts .slEnq = true) : s.run = false := by
  simpa [State.accepts, Instr.isPush] using h

/-- What CL does in a step keeps the invariant: the port takes an `SL_ENQ` with `run` = 0 only and nothing while CL is held,
and the sequencer's `SL_ENQ` is at phase 5. -/
theorem ClMove.keeps_inv (h : s.Inv) (hm : ClMove s b t) : t.Inv := by
  cases hm with
  | nothing ht => exact h.before ht
  | host i rest hb hfree _ haccepts he =>
    have hrun : b.run = s.run := by rw [hb.1]
    have hheld : b.held = s.held := by rw [hb.1]
    refine (h.before hb).exec (fun hi hr => ?_) (fun _ => hheld.trans hfree) he
    subst hi
    exact absurd ((run_of_accepts_slEnq haccepts).symm.trans (hrun.symm.trans hr)) (by decide)
  | sequencer u hb _ he ht =>
    have hphase : b.phase = s.phase := by rw [hb.1]
    rw [← hphase] at he
    have hu : u.Inv := (h.before hb).exec (fun hi _ => loopInstr_eq_slEnq _ hi)
      (fun hi => absurd hi (loopInstr_ne_sysRun _)) he
    rw [ht, ← hphase, ← exec_phase (loopInstr_ne_sysRun _) he]
    exact hu.advance
  | retry hb hr _ he =>
    have hrun : b.run = false := by rw [hb.1]; exact hr
    exact (h.before hb).slEnq (fun hr' => absurd (hrun.symm.trans hr') (by decide)) he

/-- Settles O54: each move a step can be keeps the invariant. -/
theorem stepKeepsInvariant : Obligations.StepKeepsInvariant := by
  intro s t h hstep
  obtain ⟨_, hm⟩ := step_cases hstep
  cases hm with
  | cl b hcl => exact hcl.keeps_inv h
  | deStart b hb ht => exact ht ▸ (h.before hb).deStart
  | deTake b hb ht => exact ht ▸ (h.before hb).deTake
  | deRet b choice hb ht => exact ht ▸ (h.before hb).deRet choice
  | rst b contents hb _ ht => exact ht ▸ (h.before hb).applyReset contents

/-! ### No step stops while `head` and `tail` are slots (`00_scope.md` R13, `60_exceptions.md` R200, R201) -/

theorem exec_answers (i : Instr) (hr : s.ring.inRange s.cfg.rbSize = true) : ∃ t, exec i s = .next t := by
  obtain hnext | ⟨hout, _⟩ := exec_total i s
  · exact hnext
  · exact absurd (hr.symm.trans hout) (by decide)

theorem clStep_answers (hr : s.ring.inRange s.cfg.rbSize = true) : ∃ t, clStep s = .next t := by
  unfold clStep
  split
  · obtain ⟨u, hu⟩ := exec_answers (loopInstr s.phase) hr
    exact ⟨u.advance s.phase, by rw [hu]; rfl⟩
  · split
    · exact exec_answers .slEnq hr
    · exact ⟨s, rfl⟩

theorem hostStep_answers (hr : s.ring.inRange s.cfg.rbSize = true) : ∃ t, hostStep s = .next t := by
  unfold hostStep
  split
  · split
    · exact ⟨s, rfl⟩
    · exact ⟨_, rfl⟩
    · split
      · exact exec_answers _ hr
      · exact ⟨_, rfl⟩
  · exact ⟨s, rfl⟩

theorem moveStep_answers (m : Move) (hr : s.ring.inRange s.cfg.rbSize = true) : ∃ t, moveStep m s = .next t := by
  cases m with
  | host i => exact hostStep_answers (s := s.latch i) hr
  | cl i => exact clStep_answers (s := s.latch i) hr
  | deStart => exact ⟨_, rfl⟩
  | deTake => exact ⟨_, rfl⟩
  | deRet choice => exact ⟨_, rfl⟩
  | rst contents => exact ⟨_, rfl⟩

/-- Settles O55: the parameters are sound, so the next move takes place; the indices are slots, so it answers. -/
theorem invariantNeverStops : Obligations.InvariantNeverStops := by
  intro s h
  cases hs : s.sched with
  | nil =>
    have hq : step s = quietStep s.quiet := by rw [step_of_configOk h.config, scheduledStep, hs]
    rw [hq]
    obtain e | e := quietStep_cases s.quiet <;> rw [e]
    · exact hostStep_answers h.ringRange
    · exact clStep_answers h.ringRange
  | cons m rest =>
    rw [step_move h.config hs]
    exact moveStep_answers m h.ringRange

end Sys2Proof.Machine
end

section
/-! PROOFS. The family of `10_state.md`: the two ends of the live count (O19), the dead slots of the ring array (O20), the
writers of each register (O48), and what sets `run` (O49). -/

namespace Sys2Proof

/-- The commands that read or write the ring buffer: the pushes, `RB_POP` and `EG_XFER`. -/
def Instr.usesRing : Instr → Bool
  | .rbPush _ | .rbPushB _ | .rbPushBS _ | .rbPop | .egXfer => true
  | .sysNop | .sysRun | .dbSample | .dbEdge | .segEnc _ | .segShow _ | .segPage => false
  | .slAddr | .slEnq | .slDrain1 | .slLine | .pgStep => false

end Sys2Proof

namespace Sys2Proof.Machine

open Sys2Proof

variable {s t b : State} {n : Nat} {r r' : Ring} {i : Instr}

/-! ### The status outputs (R24, R25) -/

/-- Settles O19, from the two ends of the count of a ring buffer whose indices are slots. -/
theorem statusOutputsFollowCount : Obligations.StatusOutputsFollowCount := by
  intro s hhead htail
  have hr : s.ring.inRange s.cfg.rbSize = true := Ring.inRange_iff.mpr ⟨hhead, htail⟩
  exact ⟨Nat.le_sub_one_of_lt (Ring.count_lt hr), Ring.isEmpty_iff_count hr, Ring.isFull_iff_count hr⟩

/-! ### Two ring buffers that differ in dead slots only (R21) -/

/-- Two ring buffers of `n` slots with the same indices and the same live bytes: the slots outside the live range may
differ. -/
structure Ring.SameLive (n : Nat) (r r' : Ring) : Prop where
  inRange : r.inRange n = true
  wf : Memory.wf r.buf = true
  wf' : Memory.wf r'.buf = true
  head : r'.head = r.head
  tail : r'.tail = r.tail
  live : r'.live n = r.live n

namespace Ring.SameLive

theorem isEmpty_eq (h : r.SameLive n r') : r'.isEmpty = r.isEmpty := by
  rw [Ring.isEmpty, Ring.isEmpty, h.head, h.tail]

theorem isFull_eq (h : r.SameLive n r') : r'.isFull n = r.isFull n := by
  rw [Ring.isFull, Ring.isFull, h.head, h.tail]

theorem inRange' (h : r.SameLive n r') : r'.inRange n = true := by
  rw [Ring.inRange, h.head, h.tail]
  exact h.inRange

/-- The second ring buffer is the first with another array. -/
theorem eq_withBuf (h : r.SameLive n r') : r' = { r with buf := r'.buf } := by
  rw [← h.head, ← h.tail]

/-- A successful push stores its byte at the head of both, where it becomes the newest live byte. -/
theorem store (h : r.SameLive n r') (b : Byte) (hf : r.isFull n = false) :
    SameLive n { r with buf := memWrite r.buf r.head b, head := ringNext n r.head }
      { r' with buf := memWrite r'.buf r'.head b, head := ringNext n r'.head } where
  inRange := Ring.inRange_push _ h.inRange
  wf := memWrite_wf h.wf _ b
  wf' := memWrite_wf h.wf' _ b
  head := congrArg (ringNext n) h.head
  tail := h.tail
  live := by rw [Ring.live_push h.inRange h.wf hf, Ring.live_push h.inRange' h.wf' (h.isFull_eq.trans hf), h.live]

theorem push (h : r.SameLive n r') (b : Byte) :
    SameLive n (r.push n b).1 (r'.push n b).1 ∧ (r'.push n b).2 = (r.push n b).2 := by
  cases hf : r.isFull n with
  | true =>
    rw [Ring.push_full hf, Ring.push_full (h.isFull_eq.trans hf)]
    exact ⟨h, rfl⟩
  | false =>
    rw [Ring.push_room hf, Ring.push_room (h.isFull_eq.trans hf)]
    exact ⟨h.store b hf, rfl⟩

theorem bulkPush {cfg : Config} (stop : Bool) (bs : List Byte) (h : r.SameLive cfg.rbSize r') :
    SameLive cfg.rbSize (r.bulkPush cfg stop bs).1 (r'.bulkPush cfg stop bs).1 ∧
      (r'.bulkPush cfg stop bs).2 = (r.bulkPush cfg stop bs).2 := by
  induction bs generalizing r r' with
  | nil => exact ⟨h, rfl⟩
  | cons b bs ih =>
    cases hf : r.isFull cfg.rbSize with
    | true =>
      simp only [Ring.bulkPush, Ring.push_full hf, Ring.push_full (h.isFull_eq.trans hf)]
      split_ifs <;> exact ⟨h, rfl⟩
    | false =>
      have hs := h.store b hf
      simp only [Ring.bulkPush, Ring.push_room hf, Ring.push_room (h.isFull_eq.trans hf)]
      split_ifs
      · exact ⟨hs, rfl⟩
      · exact ⟨h, rfl⟩
      · obtain ⟨hring, hcount⟩ := ih hs
        exact ⟨hring, congrArg Nat.succ hcount⟩

/-- A pop reads the same byte, the oldest live one, and leaves the same live bytes. -/
theorem pop (h : r.SameLive n r') (he : r.isEmpty = false) :
    memRead r'.buf r'.tail = memRead r.buf r.tail ∧
      SameLive n { r with tail := ringNext n r.tail } { r' with tail := ringNext n r'.tail } := by
  have hlive := h.live
  rw [Ring.live_pop h.inRange he, Ring.live_pop h.inRange' (h.isEmpty_eq.trans he), List.cons.injEq] at hlive
  obtain ⟨holdest, hothers⟩ := hlive
  exact ⟨holdest, Ring.inRange_pop h.inRange, h.wf, h.wf', h.head, congrArg (ringNext n) h.tail, hothers⟩

end Ring.SameLive

/-! ### The pop commands, answer by answer (`40_ring_buffer.md` R102, `44_control_loop.md` R182) -/

theorem exec_rbPop_empty (hr : s.ring.inRange s.cfg.rbSize = true) (he : s.ring.isEmpty = true) :
    exec .rbPop s = .next (s.ret { data := s.cfg.popDefault, ok := false }) := by
  rw [exec, execRbPop, Ring.pop_empty he, ringGuard_of_inRange hr]

theorem exec_rbPop_some (hr : s.ring.inRange s.cfg.rbSize = true) (he : s.ring.isEmpty = false) :
    exec .rbPop s = .next ({ s with ring := { s.ring with tail := ringNext s.cfg.rbSize s.ring.tail } }.ret
      { data := memRead s.ring.buf s.ring.tail, ok := true }) := by
  rw [exec, execRbPop, Ring.pop_some he, ringGuard_of_inRange hr]

theorem exec_egXfer_idle (hr : s.ring.inRange s.cfg.rbSize = true)
    (h : s.inp.txReady = false ∨ s.ring.isEmpty = true) : exec .egXfer s = .next (s.ret { ok := false }) := by
  rw [exec, execEgXfer, ringGuard_of_inRange hr]
  obtain hx | he := h
  · simp [hx]
  · simp [Ring.pop_empty he]

theorem exec_egXfer_send (hr : s.ring.inRange s.cfg.rbSize = true) (hx : s.inp.txReady = true)
    (he : s.ring.isEmpty = false) :
    exec .egXfer s = .next (s.send (memRead s.ring.buf s.ring.tail)
      { s.ring with tail := ringNext s.cfg.rbSize s.ring.tail }) := by
  rw [exec, execEgXfer, ringGuard_of_inRange hr, hx, Ring.pop_some he, if_pos rfl]

/-! ### The commands of the other units neither read nor write the ring buffer -/

/-- What a command of another unit does depends on nothing in the ring buffer. -/
theorem exec_withRing (s : State) (r : Ring) (hi : i.usesRing = false) :
    exec i { s with ring := r } = mapNext (fun t => { t with ring := r }) (exec i s) := by
  cases i with
  | rbPush _ | rbPushB _ | rbPushBS _ | rbPop | egXfer => cases hi
  | dbSample =>
    rw [exec_dbSample, exec_dbSample, show ({ s with ring := r } : State).gatePasses = s.gatePasses from rfl]
    split <;> rfl
  | slEnq =>
    obtain hf | hf := Bool.eq_false_or_eq_true s.validFull
    · rw [exec_slEnq_hold hf]; exact exec_slEnq_hold (s := { s with ring := r }) hf
    · rw [exec_slEnq_room hf]; exact exec_slEnq_room (s := { s with ring := r }) hf
  | slDrain1 =>
    obtain hf | ⟨a, q, hf⟩ : s.free = [] ∨ ∃ a q, s.free = a :: q := by cases s.free <;> simp
    · rw [exec_slDrain1_nil hf]; exact exec_slDrain1_nil (s := { s with ring := r }) hf
    · rw [exec_slDrain1_cons hf]; exact exec_slDrain1_cons (s := { s with ring := r }) hf
  | pgStep =>
    obtain he | he := Bool.eq_false_or_eq_true s.edge
    · rw [exec_pgStep_edge he]; exact exec_pgStep_edge (s := { s with ring := r }) he
    · rw [exec_pgStep_none he]; exact exec_pgStep_none (s := { s with ring := r }) he
  | sysNop | sysRun | dbEdge | segEnc _ | segShow _ | segPage | slAddr | slLine => rfl

theorem exec_ring (he : exec i s = .next t) (hi : i.usesRing = false) : t.ring = s.ring := by
  have e : exec i s = mapNext (fun t => { t with ring := s.ring }) (exec i s) := exec_withRing s s.ring hi
  obtain ⟨u, _, rfl⟩ := mapNext_next (e.symm.trans he)
  rfl

/-! ### No command shows a dead slot (R21) -/

/-- A command on two states that differ in dead slots only: it leaves two such states. -/
theorem exec_sameLive (h : s.ring.SameLive s.cfg.rbSize r) (he : exec i s = .next t) :
    ∃ r', exec i { s with ring := r } = .next { t with ring := r' } ∧ t.ring.SameLive s.cfg.rbSize r' := by
  cases i with
  | rbPush b =>
    obtain ⟨_, rfl⟩ := exec_rbPush_next.mp he
    obtain ⟨hring, hok⟩ := h.push b
    exact ⟨_, exec_rbPush_next.mpr ⟨h.inRange', by rw [hok]; rfl⟩, hring⟩
  | rbPushB bytes =>
    obtain ⟨_, rfl⟩ := exec_rbPushB_next.mp he
    obtain ⟨hring, hcount⟩ := h.bulkPush false bytes
    exact ⟨_, exec_rbPushB_next.mpr ⟨h.inRange', by rw [State.bulk, hcount]; rfl⟩, hring⟩
  | rbPushBS bytes =>
    obtain ⟨_, rfl⟩ := exec_rbPushBS_next.mp he
    obtain ⟨hring, hcount⟩ := h.bulkPush true bytes
    exact ⟨_, exec_rbPushBS_next.mpr ⟨h.inRange', by rw [State.bulk, hcount]; rfl⟩, hring⟩
  | rbPop =>
    obtain ⟨_, ⟨hempty, rfl⟩ | ⟨hsome, rfl⟩⟩ := exec_rbPop_next he
    · exact ⟨r, exec_rbPop_empty (s := { s with ring := r }) h.inRange' (h.isEmpty_eq.trans hempty), h⟩
    · obtain ⟨hbyte, hring⟩ := h.pop hsome
      rw [← hbyte]
      exact ⟨_, exec_rbPop_some (s := { s with ring := r }) h.inRange' (h.isEmpty_eq.trans hsome), hring⟩
  | egXfer =>
    obtain ⟨_, ⟨hidle, rfl⟩ | ⟨hready, hsome, rfl⟩⟩ := exec_egXfer_next he
    · rw [← h.isEmpty_eq] at hidle
      exact ⟨r, exec_egXfer_idle (s := { s with ring := r }) h.inRange' hidle, h⟩
    · obtain ⟨hbyte, hring⟩ := h.pop hsome
      rw [← hbyte]
      exact ⟨_, exec_egXfer_send (s := { s with ring := r }) h.inRange' hready (h.isEmpty_eq.trans hsome), hring⟩
  | _ => exact ⟨r, (exec_withRing s r rfl).trans (by rw [he]; rfl), (exec_ring he rfl).symm ▸ h⟩

/-- Settles O20: the two states differ in dead slots only, and so do those that the command leaves. -/
theorem deadSlotsAreNotObservable : Obligations.DeadSlotsAreNotObservable := by
  intro i s t buf hr hwf hwf' hlive he
  have h : s.ring.SameLive s.cfg.rbSize { s.ring with buf := buf } := ⟨hr, hwf, hwf', rfl, rfl, hlive⟩
  obtain ⟨r', he', ht⟩ := exec_sameLive h he
  have hcfg : t.cfg = s.cfg := (exec_environment he).1
  refine ⟨{ t with ring := r' }, he', ?_, ?_⟩
  · exact congrArg (fun r => { t with ring := r }) ht.eq_withBuf
  · rw [← hcfg] at ht
    exact ht.live

/-! ### The writers of each register (R20) -/

/-- The table of R20 read by command: `t` is `s` but for the registers of which the table names the command as a writer, and
the outputs. -/
def State.OnlyTableWrites (s t : State) : Instr → Prop
  | .sysNop | .segEnc _ => t = { s with out := t.out }
  | .sysRun => t = { s with run := t.run, phase := t.phase, out := t.out }
  | .rbPush _ | .rbPushB _ | .rbPushBS _ => t = { s with ring := { t.ring with tail := s.ring.tail }, out := t.out }
  | .rbPop => t = { s with ring := { s.ring with tail := t.ring.tail }, out := t.out }
  | .egXfer => t = { s with ring := { s.ring with tail := t.ring.tail }, txLog := t.txLog, out := t.out }
  | .dbSample => t = { s with s0 := t.s0, s1 := t.s1, s2 := t.s2, stable := t.stable, tLast := t.tLast, out := t.out }
  | .dbEdge => t = { s with prev := t.prev, edge := t.edge, out := t.out }
  | .segShow _ | .segPage => t = { s with segOut := t.segOut, out := t.out }
  | .slAddr => t = { s with slAddr := t.slAddr, out := t.out }
  | .slEnq => t = { s with valid := t.valid, validLog := t.validLog, held := t.held, out := t.out }
  | .slDrain1 => t = { s with free := t.free, out := t.out }
  | .slLine => t = { s with line := t.line, out := t.out }
  | .pgStep =>
    (s.edge = true ∧ t = { s with page := t.page, segOut := t.segOut, out := t.out }) ∨
      (s.edge = false ∧ t = { s with out := t.out })

theorem Ring.push_tail (n : Nat) (b : Byte) (r : Ring) : (r.push n b).1.tail = r.tail := by
  obtain ⟨_, e⟩ | ⟨_, e⟩ := Ring.push_cases n b r <;> rw [e]

theorem exec_onlyTableWrites (he : exec i s = .next t) : s.OnlyTableWrites t i := by
  cases i with
  | rbPush b =>
    obtain ⟨_, rfl⟩ := exec_rbPush_next.mp he
    simp only [State.OnlyTableWrites, ret_ring, ← Ring.push_tail s.cfg.rbSize b s.ring]
    rfl
  | rbPushB bytes =>
    obtain ⟨_, rfl⟩ := exec_rbPushB_next.mp he
    simp only [State.OnlyTableWrites, bulk_ring, ← Ring.bulkPush_tail s.cfg false bytes s.ring]
    rfl
  | rbPushBS bytes =>
    obtain ⟨_, rfl⟩ := exec_rbPushBS_next.mp he
    simp only [State.OnlyTableWrites, bulk_ring, ← Ring.bulkPush_tail s.cfg true bytes s.ring]
    rfl
  | rbPop => obtain ⟨_, ⟨_, rfl⟩ | ⟨_, rfl⟩⟩ := exec_rbPop_next he <;> rfl
  | egXfer => obtain ⟨_, ⟨_, rfl⟩ | ⟨_, _, rfl⟩⟩ := exec_egXfer_next he <;> rfl
  | dbSample =>
    cases he
    split <;> rfl
  | slEnq =>
    obtain hf | hf := Bool.eq_false_or_eq_true s.validFull
    · cases (exec_slEnq_hold hf).symm.trans he; rfl
    · cases (exec_slEnq_room hf).symm.trans he; rfl
  | slDrain1 =>
    cases hf : s.free with
    | nil => cases (exec_slDrain1_nil hf).symm.trans he; rfl
    | cons a q => cases (exec_slDrain1_cons hf).symm.trans he; rfl
  | pgStep =>
    obtain hedge | hedge := Bool.eq_false_or_eq_true s.edge
    · cases (exec_pgStep_edge hedge).symm.trans he; exact .inl ⟨hedge, rfl⟩
    · cases (exec_pgStep_none hedge).symm.trans he; exact .inr ⟨hedge, rfl⟩
  | sysNop | sysRun | dbEdge | segEnc _ | segShow _ | segPage | slAddr | slLine => cases he; rfl

/-- Settles O48: for each command the table's row tells which registers it leaves. -/
theorem onlyTheTablesWritersWrite : Obligations.OnlyTheTablesWritersWrite := by
  intro i s t he
  have hw := exec_onlyTableWrites he
  cases i with
  | pgStep =>
    obtain ⟨hedge, hw⟩ | ⟨_, hw⟩ := hw <;> rw [hw]
    · simp [hedge]
    · simp
  | _ =>
    rw [hw]
    simp [Instr.isPush]

/-! ### What sets `run` (R37, R184) -/

theorem exec_run (he : exec i s = .next t) (hi : i ≠ .sysRun) : t.run = s.run := by
  obtain ⟨_, _, _, _, _, _, _, _, _, _, hrun, _⟩ := onlyTheTablesWritersWrite i s t he
  exact (hrun.resolve_left hi).1

theorem deStart_run (s : State) : (deStart s).run = s.run := by
  obtain e | ⟨_, _, e⟩ := deStart_cases s <;> rw [e]

theorem deTake_run (s : State) : (deTake s).run = s.run := by
  obtain e | ⟨_, _, _, _, e⟩ := deTake_cases s <;> rw [e]

theorem deRet_run (choice : Nat) (s : State) : (deRet choice s).run = s.run := by
  obtain e | ⟨_, _, _, _, e⟩ := deRet_cases choice s <;> rw [e]

theorem State.Before.run_eq (hb : s.Before b) : b.run = s.run := by rw [hb.1]

/-- From `s` to `t` a `SYS_RUN` that waited at the port has run, at a port that was ready. -/
def State.RunTaken (s t : State) : Prop :=
  t.run = true ∧ s.held = false ∧ t.phase = 0 ∧ ∃ ws, decode s.cmdIn = .ok (.sysRun, ws)

/-- CL leaves `run`, but for a `SYS_RUN` at the port: the loop holds none, and a held command is an `SL_ENQ`. -/
theorem ClMove.run_cases (h : ClMove s b t) : t.run = s.run ∨ s.RunTaken t := by
  cases h with
  | nothing ht => exact .inl ht.run_eq
  | host i rest hb hfree hd _ he =>
    by_cases hi : i = .sysRun
    · subst hi
      cases he
      exact .inr ⟨rfl, hfree, rfl, rest, hd⟩
    · exact .inl ((exec_run he hi).trans hb.run_eq)
  | sequencer u hb _ he ht =>
    rw [ht, advance_run]
    exact .inl ((exec_run he (loopInstr_ne_sysRun _)).trans hb.run_eq)
  | retry hb _ _ he => exact .inl ((exec_run he nofun).trans hb.run_eq)

theorem step_run_cases (hn : s.noReset = true) (h : step s = .next t) : t.run = s.run ∨ s.RunTaken t := by
  obtain ⟨_, hm⟩ := step_cases h
  cases hm with
  | cl b hcl => exact hcl.run_cases
  | deStart b hb ht => rw [ht, deStart_run]; exact .inl hb.run_eq
  | deTake b hb ht => rw [ht, deTake_run]; exact .inl hb.run_eq
  | deRet b choice hb ht => rw [ht, deRet_run]; exact .inl hb.run_eq
  | rst b contents _ hr => exact absurd (hn.symm.trans hr) (by decide)

/-- Settles O49: a step leaves `run` as it is or takes a `SYS_RUN` from the port. -/
theorem runSetOnlyBySysRun : Obligations.RunSetOnlyBySysRun := by
  intro s t hn h
  obtain hrun | ⟨hrun, hfree, hphase, hd⟩ := step_run_cases hn h
  · exact ⟨hrun.trans, fun hs ht => absurd (ht.symm.trans (hrun.trans hs)) (by decide)⟩
  · exact ⟨fun _ => hrun, fun _ _ => ⟨hfree, hphase, hd⟩⟩

end Sys2Proof.Machine
end

section
/-! PROOFS. The family of `30_encoding.md`: the opcode map (O1, O4), decoding and encoding undo each other (O2, O3), the
classes of illegal encodings (O5), and what a host move does at the command port (O6, O9, O10). -/

namespace Sys2Proof

variable {w : Word} {ws rest : List Word} {i : Instr} {r : OpcodeRow} {e : Reject} {stop : Bool} {len : Nat}

/-! ### The fields of a word (R81) -/

@[simp] theorem funcOf_wordOf (u f : BitVec 4) (b : Byte) : funcOf (wordOf u f b) = f := by
  rw [funcOf, wordOf, BitVec.extractLsb'_append_eq_of_le le_rfl]
  exact BitVec.extractLsb'_append_eq_right

@[simp] theorem unitOf_wordOf (u f : BitVec 4) (b : Byte) : unitOf (wordOf u f b) = u := by
  rw [unitOf, wordOf, BitVec.extractLsb'_append_eq_of_le (by decide)]
  exact BitVec.extractLsb'_append_eq_left

/-- A word is its three fields. -/
theorem wordOf_fields (w : Word) : wordOf (unitOf w) (funcOf w) (immOf w) = w := by
  rw [wordOf, unitOf, funcOf, immOf,
    BitVec.extractLsb'_append_extractLsb'_eq_extractLsb' (start₂ := 12) (start₁ := 8) (len₁ := 4) rfl,
    BitVec.extractLsb'_append_extractLsb'_eq_extractLsb' (start₂ := 8) (start₁ := 0) (len₁ := 8) rfl]
  exact BitVec.extractLsb'_eq_self

theorem word_eq_iff {w v : Word} : w = v ↔ unitOf w = unitOf v ∧ funcOf w = funcOf v ∧ immOf w = immOf v := by
  refine ⟨fun h => h ▸ ⟨rfl, rfl, rfl⟩, fun ⟨hunit, hfunc, himm⟩ => ?_⟩
  rw [← wordOf_fields w, ← wordOf_fields v, hunit, hfunc, himm]

theorem and_0xFF00 (w : Word) : w &&& 0xFF00 = wordOf (unitOf w) (funcOf w) 0 := by
  have hones (u : BitVec 4) : u &&& 0xF = u := BitVec.and_allOnes
  have hzero : immOf w &&& 0 = 0 := BitVec.and_zero
  conv_lhs => rw [← wordOf_fields w]
  rw [show (0xFF00 : Word) = wordOf 0xF 0xF 0 from rfl, wordOf, wordOf, BitVec.and_append, BitVec.and_append, hones,
    hones, hzero, wordOf]

theorem payloadWord_immOf (h : highByteOf w = 0) : payloadWord (immOf w) = w := by
  rw [payloadWord, ← show highByteOf w = 0x00 from h, highByteOf, immOf,
    BitVec.extractLsb'_append_extractLsb'_eq_extractLsb' (start₂ := 8) (start₁ := 0) (len₁ := 8) rfl]
  exact BitVec.extractLsb'_eq_self

/-! ### The rows of the opcode map (R84) -/

/-- The row stands under the `UNIT` and `FUNC` of the word. -/
def OpcodeRow.Names (r : OpcodeRow) (w : Word) : Prop := unitOf r.mtch = unitOf w ∧ funcOf r.mtch = funcOf w

/-- A row fixes the whole word, with `IMM8` = 0, or leaves `IMM8` open. -/
theorem opcodeRows_masks :
    ∀ r ∈ opcodeRows, immOf r.mtch = 0 ∧ (r.mask = 0xFFFF ∨ r.mask = 0xFF00) := by decide

/-- A word selects a row by its `UNIT` and `FUNC`, and by `IMM8` = 0 where the row leaves no operand open. -/
theorem selects_iff (hr : r ∈ opcodeRows) :
    w &&& r.mask = r.mtch ↔ r.Names w ∧ (r.mask = 0xFF00 ∨ immOf w = 0) := by
  obtain ⟨himm, hmask | hmask⟩ := opcodeRows_masks r hr
  · have hall : w &&& 0xFFFF = w := BitVec.and_allOnes
    rw [hmask, hall, word_eq_iff, himm]
    simp [OpcodeRow.Names, eq_comm, and_assoc]
  · rw [hmask, and_0xFF00, word_eq_iff]
    simp [himm, OpcodeRow.Names, eq_comm]

/-- No two rows stand under one `UNIT` and `FUNC`. -/
theorem opcodeRows_names_distinct :
    opcodeRows.Pairwise fun r r' => ¬ (unitOf r.mtch = unitOf r'.mtch ∧ funcOf r.mtch = funcOf r'.mtch) := by decide

/-- Settles O4: a word that selected two rows would name both. -/
theorem opcodeRowsDoNotOverlap : Obligations.OpcodeRowsDoNotOverlap := by
  refine ⟨rfl, opcodeRows_names_distinct.imp_of_mem fun hr hr' hdistinct w hw hw' => hdistinct ?_⟩
  obtain ⟨⟨hunit, hfunc⟩, _⟩ := (selects_iff hr).mp hw
  obtain ⟨⟨hunit', hfunc'⟩, _⟩ := (selects_iff hr').mp hw'
  exact ⟨hunit.trans hunit'.symm, hfunc.trans hfunc'.symm⟩

theorem rowOf_some (h : rowOf w = some r) : r ∈ opcodeRows ∧ w &&& r.mask = r.mtch :=
  ⟨List.mem_of_find?_eq_some h, by simpa using List.find?_some h⟩

theorem rowOf_eq_none : rowOf w = none ↔ ¬ ∃ r ∈ opcodeRows, w &&& r.mask = r.mtch := by
  simp [rowOf, List.find?_eq_none]

/-! ### The headers (R82, R84) -/

/-- `FUNC` of the two bulk headers (R82). -/
def bulkFunc (stop : Bool) : BitVec 4 := if stop then 0x3 else 0x2

/-- The word is the whole encoding of the command, or word 0 of a bulk packet of either kind. -/
def Header.begins (w : Word) : Header → Bool
  | .single i => i.wellFormed && encode i == [w]
  | .bulk stop => unitOf w == 0x1 && funcOf w == bulkFunc stop

theorem build_begins_zero : ∀ r ∈ opcodeRows, (r.build 0).begins (wordOf (unitOf r.mtch) (funcOf r.mtch) 0) = true := by
  decide

theorem build_begins_open : ∀ r ∈ opcodeRows, r.mask = 0xFF00 → ∀ b : Byte,
    (r.build b).begins (wordOf (unitOf r.mtch) (funcOf r.mtch) b) = true := by
  decide

theorem begins_of_selects (hr : r ∈ opcodeRows) (h : w &&& r.mask = r.mtch) : (r.build (immOf w)).begins w = true := by
  obtain ⟨⟨hunit, hfunc⟩, himm⟩ := (selects_iff hr).mp h
  have hbegins : (r.build (immOf w)).begins (wordOf (unitOf r.mtch) (funcOf r.mtch) (immOf w)) = true := by
    obtain hopen | hzero := himm
    · exact build_begins_open r hr hopen _
    · rw [hzero]; exact build_begins_zero r hr
  rwa [hunit, hfunc, wordOf_fields] at hbegins

theorem begins_of_headerOf {h : Header} (hw : headerOf w = some h) : h.begins w = true := by
  obtain ⟨r, hr, rfl⟩ := Option.map_eq_some_iff.mp hw
  obtain ⟨hmem, hselects⟩ := rowOf_some hr
  exact begins_of_selects hmem hselects

theorem headerOf_single (h : headerOf w = some (.single i)) : WellFormed i ∧ encode i = [w] := by
  simpa [Header.begins] using begins_of_headerOf h

theorem headerOf_bulk_iff : headerOf w = some (.bulk stop) ↔ unitOf w = 0x1 ∧ funcOf w = bulkFunc stop := by
  refine ⟨fun h => by simpa [Header.begins] using begins_of_headerOf h, fun ⟨hunit, hfunc⟩ => ?_⟩
  rw [← wordOf_fields w, hunit, hfunc]
  cases stop with
  | false => exact headerOf_rbPushB _
  | true => exact headerOf_rbPushBS _

theorem headerOf_eq_none : headerOf w = none ↔ rowOf w = none := Option.map_eq_none_iff

/-- Decoding a first word that selects no row. -/
theorem decode_none (h : headerOf w = none) (ws : List Word) : decode (w :: ws) = .error (rejectOf w) := by
  simp [decode, headerOf_eq_none.mp h]

/-! ### Packets (R82, R88) -/

theorem payloadBytes_eq_some {bytes : List Byte} : payloadBytes ws = some bytes ↔ ws = bytes.map payloadWord := by
  refine ⟨fun h => ?_, fun h => h ▸ payloadBytes_map_payloadWord bytes⟩
  induction ws generalizing bytes with
  | nil => cases h; rfl
  | cons w ws ih =>
    rw [payloadBytes] at h
    split at h
    · rename_i hhigh
      obtain ⟨bs, hbs, rfl⟩ := Option.map_eq_some_iff.mp h
      rw [List.map_cons, payloadWord_immOf hhigh, ← ih hbs]
    · cases h

theorem payloadBytes_eq_none : payloadBytes ws = none ↔ ∃ p ∈ ws, highByteOf p ≠ 0 := by
  induction ws with
  | nil => simp [payloadBytes]
  | cons w ws ih =>
    by_cases hhigh : highByteOf w = 0
    · simp [payloadBytes, hhigh, ih]
    · exact iff_of_true (if_neg hhigh) ⟨w, List.mem_cons_self, hhigh⟩

/-- The packets the decoder accepts behind a bulk header: `len` payload words. -/
theorem decodeBulk_eq_ok : decodeBulk stop len ws = .ok (i, rest) ↔
    ∃ bytes : List Byte, bytes.length = len ∧ bulkInstr stop bytes = i ∧ ws = bytes.map payloadWord ++ rest := by
  constructor
  · intro h
    rw [decodeBulk] at h
    split at h
    · cases h
    · rename_i hlen
      split at h
      · rename_i bytes hbytes
        cases h
        have htake := payloadBytes_eq_some.mp hbytes
        refine ⟨bytes, ?_, rfl, by rw [← htake, List.take_append_drop]⟩
        rw [← List.length_map payloadWord, ← htake, List.length_take]
        omega
      · cases h
  · rintro ⟨bytes, rfl, rfl, rfl⟩
    have htake : (bytes.map payloadWord ++ rest).take bytes.length = bytes.map payloadWord :=
      List.take_left' (List.length_map _)
    have hdrop : (bytes.map payloadWord ++ rest).drop bytes.length = rest := List.drop_left' (List.length_map _)
    simp [decodeBulk, htake, hdrop, payloadBytes_map_payloadWord]

/-- The packets the decoder does not accept behind a bulk header: words are missing, or one has a high byte. -/
theorem decodeBulk_eq_error : decodeBulk stop len ws = .error e ↔
    (e = .incompletePacket ∧ ws.length < len) ∨
      (e = .payloadHighByte ∧ len ≤ ws.length ∧ ∃ p ∈ ws.take len, highByteOf p ≠ 0) := by
  by_cases hlen : ws.length < len
  · simp [decodeBulk, hlen, eq_comm, Nat.not_le.mpr hlen]
  · rw [← payloadBytes_eq_none]
    cases hbytes : payloadBytes (ws.take len) <;>
      simp [decodeBulk, hlen, hbytes, eq_comm, Nat.not_lt.mp hlen]

/-! ### Decoding and encoding undo each other (R84 to R88) -/

theorem encode_bulkInstr (stop : Bool) (bytes : List Byte) :
    encode (bulkInstr stop bytes) =
      wordOf 0x1 (bulkFunc stop) (BitVec.ofNat 8 bytes.length) :: bytes.map payloadWord := by
  cases stop <;> rfl

theorem wellFormed_bulkInstr (stop : Bool) (bytes : List Byte) :
    (bulkInstr stop bytes).wellFormed = payloadFits bytes := by
  cases stop <;> rfl

theorem decode_encode_bulk {bytes : List Byte} (h : payloadFits bytes = true) (stop : Bool) (ws : List Word) :
    decode (encode (bulkInstr stop bytes) ++ ws) = .ok (bulkInstr stop bytes, ws) := by
  rw [encode_bulkInstr, List.cons_append, decode_bulk (headerOf_bulk_iff.mpr ⟨unitOf_wordOf .., funcOf_wordOf ..⟩),
    immOf_wordOf, Laws.EncodedLength.lenField h]
  exact decodeBulk_eq_ok.mpr ⟨bytes, rfl, rfl, rfl⟩

/-- Settles O2: the first word of the encoding selects the header of the command's row, and the payload words of a bulk push
give its bytes back. -/
theorem decodeOfEncode : Obligations.DecodeOfEncode := by
  intro i ws h
  cases i with
  | rbPushB bytes => exact decode_encode_bulk h false ws
  | rbPushBS bytes => exact decode_encode_bulk h true ws
  | rbPush b => exact decode_single (headerOf_rbPush b) ws
  | segEnc d => exact decode_single (headerOf_segEnc d) ws
  | segShow d => exact decode_single (headerOf_segShow d) ws
  | sysNop | sysRun | rbPop | dbSample | dbEdge | segPage | slAddr | slEnq | slDrain1 | slLine | pgStep | egXfer =>
    exact decode_single (by decide) ws

/-- Settles O3: the header that the first word selects fixes the first word, and the packet behind a bulk header is its
payload words. -/
theorem encodeOfDecode : Obligations.EncodeOfDecode := by
  intro ws i rest h
  cases ws with
  | nil => cases h
  | cons w ws =>
    cases hw : headerOf w with
    | none => cases (decode_none hw ws).symm.trans h
    | some header =>
      cases header with
      | single j =>
        cases (decode_single hw ws).symm.trans h
        obtain ⟨hwf, hencode⟩ := headerOf_single hw
        exact ⟨hwf, by rw [hencode]; rfl⟩
      | bulk stop =>
        obtain ⟨hunit, hfunc⟩ := headerOf_bulk_iff.mp hw
        rw [decode_bulk hw] at h
        obtain ⟨bytes, hlen, rfl, rfl⟩ := decodeBulk_eq_ok.mp h
        have himm : BitVec.ofNat 8 bytes.length = immOf w := by rw [hlen, BitVec.ofNat_toNat, BitVec.setWidth_eq]
        refine ⟨?_, ?_⟩
        · have hlt : (immOf w).toNat < 2 ^ 8 := (immOf w).isLt
          exact (wellFormed_bulkInstr stop bytes).trans (decide_eq_true (by omega))
        · rw [encode_bulkInstr, himm, ← hunit, ← hfunc, wordOf_fields, List.cons_append]

/-! ### The classes of illegal encodings (R86) -/

/-- The number of functions that the table lists for a `UNIT`: those below it (R84). -/
def listedFuncs (unit : Nat) : Nat := [2, 4, 2, 3, 4, 1, 1].getD unit 0

/-- The `UNIT` and `FUNC` of the commands with an immediate and of the bulk headers (R84). -/
def immediateCodes : List (Nat × Nat) := [(1, 0), (1, 2), (1, 3), (3, 0), (3, 1)]

theorem exists_row_unit : ∀ u : BitVec 4, (∃ r ∈ opcodeRows, unitOf r.mtch = u) ↔ u.toNat < 7 := by decide

theorem exists_row_func : ∀ u f : BitVec 4,
    (∃ r ∈ opcodeRows, unitOf r.mtch = u ∧ funcOf r.mtch = f) ↔ f.toNat < listedFuncs u.toNat := by decide

theorem exists_row_open : ∀ u f : BitVec 4,
    (∃ r ∈ opcodeRows, (unitOf r.mtch = u ∧ funcOf r.mtch = f) ∧ r.mask = 0xFF00) ↔
      (u.toNat, f.toNat) ∈ immediateCodes := by decide

theorem exists_row_names (w : Word) :
    (∃ r ∈ opcodeRows, r.Names w) ↔ (funcOf w).toNat < listedFuncs (unitOf w).toNat :=
  exists_row_func (unitOf w) (funcOf w)

theorem lt_seven_of_listed {unit func : Nat} (h : func < listedFuncs unit) : unit < 7 := by
  by_contra hunit
  have hnone : listedFuncs unit = 0 := List.getD_eq_default _ _ (Nat.not_lt.mp hunit)
  omega

theorem listed_of_immediate {unit func : Nat} (h : (unit, func) ∈ immediateCodes) : func < listedFuncs unit := by
  have hall : ∀ c ∈ immediateCodes, c.2 < listedFuncs c.1 := by decide
  exact hall _ h

/-- A word selects no row: its function is not listed, or it has no immediate and `IMM8` is not 0. -/
theorem headerOf_eq_none_iff : headerOf w = none ↔
    ¬ ((unitOf w).toNat, (funcOf w).toNat) ∈ immediateCodes ∧
      ¬ ((funcOf w).toNat < listedFuncs (unitOf w).toNat ∧ immOf w = 0) := by
  rw [headerOf_eq_none, rowOf_eq_none, ← not_or, not_iff_not, ← exists_row_open, ← exists_row_names]
  constructor
  · rintro ⟨r, hr, hw⟩
    obtain ⟨hnames, hopen | hzero⟩ := (selects_iff hr).mp hw
    · exact .inl ⟨r, hr, hnames, hopen⟩
    · exact .inr ⟨⟨r, hr, hnames⟩, hzero⟩
  · rintro (⟨r, hr, hnames, hopen⟩ | ⟨⟨r, hr, hnames⟩, hzero⟩)
    · exact ⟨r, hr, (selects_iff hr).mpr ⟨hnames, .inl hopen⟩⟩
    · exact ⟨r, hr, (selects_iff hr).mpr ⟨hnames, .inr hzero⟩⟩

theorem headerOf_eq_none_of_unlisted (h : listedFuncs (unitOf w).toNat ≤ (funcOf w).toNat) : headerOf w = none :=
  headerOf_eq_none_iff.mpr
    ⟨fun himm => absurd (listed_of_immediate himm) (Nat.not_lt.mpr h), fun hlisted => absurd hlisted.1 (Nat.not_lt.mpr h)⟩

/-- The class of a word without a row, by its `UNIT` and `FUNC`. -/
theorem rejectOf_eq (w : Word) : rejectOf w =
    if (funcOf w).toNat < listedFuncs (unitOf w).toNat then .nonzeroImmediate
    else if (unitOf w).toNat < 7 then .unassignedFunc else .unassignedUnit := by
  simp only [rejectOf, List.any_eq_true, Bool.and_eq_true, beq_iff_eq, exists_row_func, exists_row_unit]

theorem rejectOf_eq_nonzeroImmediate :
    rejectOf w = .nonzeroImmediate ↔ (funcOf w).toNat < listedFuncs (unitOf w).toNat := by
  rw [rejectOf_eq]
  split_ifs <;> simp_all

theorem rejectOf_eq_unassignedFunc : rejectOf w = .unassignedFunc ↔
    (unitOf w).toNat < 7 ∧ listedFuncs (unitOf w).toNat ≤ (funcOf w).toNat := by
  rw [rejectOf_eq]
  split_ifs <;> simp_all

theorem rejectOf_eq_unassignedUnit : rejectOf w = .unassignedUnit ↔ 7 ≤ (unitOf w).toNat := by
  rw [rejectOf_eq]
  split_ifs with hlisted hunit
  · simpa using lt_seven_of_listed hlisted
  · simpa using hunit
  · simpa using hunit

theorem rejectOf_ne_packetError (w : Word) :
    rejectOf w ≠ .noWord ∧ rejectOf w ≠ .incompletePacket ∧ rejectOf w ≠ .payloadHighByte := by
  rw [rejectOf_eq]
  split_ifs <;> decide

/-- A first word that is refused by itself, or a packet that is. -/
theorem decode_cons_eq_error : decode (w :: ws) = .error e ↔
    (headerOf w = none ∧ rejectOf w = e) ∨
      ∃ stop, headerOf w = some (.bulk stop) ∧ decodeBulk stop (immOf w).toNat ws = .error e := by
  cases hw : headerOf w with
  | none => simp [decode_none hw]
  | some header =>
    cases header with
    | single i => simp [decode_single hw]
    | bulk stop => simp [decode_bulk hw]

/-- A reason that no packet gives is that of the first word alone. -/
theorem decode_cons_eq_wordError (he : e ≠ .incompletePacket) (he' : e ≠ .payloadHighByte) :
    decode (w :: ws) = .error e ↔ headerOf w = none ∧ rejectOf w = e := by
  simp [decode_cons_eq_error, decodeBulk_eq_error, he, he']

theorem decode_cons_ne_noWord (w : Word) (ws : List Word) : decode (w :: ws) ≠ .error .noWord := by
  rw [Ne, decode_cons_eq_wordError (by decide) (by decide)]
  exact fun h => (rejectOf_ne_packetError w).1 h.2

theorem decode_cons_eq_unassignedUnit :
    decode (w :: ws) = .error .unassignedUnit ↔ 7 ≤ (unitOf w).toNat := by
  rw [decode_cons_eq_wordError (by decide) (by decide), rejectOf_eq_unassignedUnit, and_iff_right_of_imp]
  intro hunit
  refine headerOf_eq_none_of_unlisted (Nat.not_lt.mp fun hlisted => ?_)
  exact absurd (lt_seven_of_listed hlisted) (Nat.not_lt.mpr hunit)

theorem decode_cons_eq_unassignedFunc : decode (w :: ws) = .error .unassignedFunc ↔
    (unitOf w).toNat < 7 ∧ listedFuncs (unitOf w).toNat ≤ (funcOf w).toNat := by
  rw [decode_cons_eq_wordError (by decide) (by decide), rejectOf_eq_unassignedFunc, and_iff_right_of_imp]
  exact fun h => headerOf_eq_none_of_unlisted h.2

theorem decode_cons_eq_nonzeroImmediate : decode (w :: ws) = .error .nonzeroImmediate ↔
    (unitOf w).toNat < 7 ∧ (funcOf w).toNat < listedFuncs (unitOf w).toNat ∧
      ¬ ((unitOf w).toNat, (funcOf w).toNat) ∈ immediateCodes ∧ immOf w ≠ 0 := by
  rw [decode_cons_eq_wordError (by decide) (by decide), rejectOf_eq_nonzeroImmediate, headerOf_eq_none_iff]
  constructor
  · rintro ⟨⟨himm, hzero⟩, hlisted⟩
    exact ⟨lt_seven_of_listed hlisted, hlisted, himm, fun h => hzero ⟨hlisted, h⟩⟩
  · rintro ⟨_, hlisted, himm, hzero⟩
    exact ⟨⟨himm, fun h => hzero h.2⟩, hlisted⟩

theorem exists_headerOf_bulk (w : Word) : (∃ stop, headerOf w = some (.bulk stop)) ↔
    (unitOf w).toNat = 1 ∧ ((funcOf w).toNat = 2 ∨ (funcOf w).toNat = 3) := by
  simp [headerOf_bulk_iff, bulkFunc, ← BitVec.toNat_inj]

theorem decode_cons_eq_payloadHighByte : decode (w :: ws) = .error .payloadHighByte ↔
    (unitOf w).toNat = 1 ∧ ((funcOf w).toNat = 2 ∨ (funcOf w).toNat = 3) ∧ (immOf w).toNat ≤ ws.length ∧
      ∃ p ∈ ws.take (immOf w).toNat, highByteOf p ≠ 0 := by
  rw [← and_assoc, ← exists_headerOf_bulk]
  simp [decode_cons_eq_error, decodeBulk_eq_error, rejectOf_ne_packetError]

/-- Settles O5: a word selects no row exactly where R86 (a) to (c) says so, and a packet is refused for its payload alone. -/
theorem illegalEncodingsClassified : Obligations.IllegalEncodingsClassified := fun _ _ =>
  ⟨decode_cons_eq_unassignedUnit, decode_cons_eq_unassignedFunc, decode_cons_eq_nonzeroImmediate,
    decode_cons_eq_payloadHighByte⟩

/-! ### Words written out (V-RB-6, V-SEG, S1) -/

/-- Settles O1: the decoder runs on each of the words. -/
theorem decodesWrittenOutWords : Obligations.DecodesWrittenOutWords := by
  unfold Obligations.DecodesWrittenOutWords
  and_intros <;> decide

/-! ### Taking a command from the port (R88, R91) -/

/-- An illegal command is taken whole, as many words as its word 0 says. -/
theorem fetch_illegal (hd : decode (w :: ws) = .error e) (he : e ≠ .incompletePacket) :
    fetch (w :: ws) = .illegal e ((w :: ws).drop (packetLength w)) := by
  cases e with
  | noWord => exact absurd hd (decode_cons_ne_noWord w ws)
  | incompletePacket => exact absurd rfl he
  | unassignedUnit | unassignedFunc | nonzeroImmediate | payloadHighByte => simp only [fetch, hd]

end Sys2Proof

namespace Sys2Proof.Machine

open Sys2Proof

variable {s : State} {inp : Inputs} {rest : List Move} {i : Instr} {w : Word} {ws : List Word} {why : Reject}

/-! ### A host move at the command port (R91, R92, `44_control_loop.md` R187) -/

/-- The state in which CL looks at the port in a host move: its inputs are drawn, the move has left the schedule, and there
is no result and no strobe. -/
def State.atPort (s : State) (inp : Inputs) (rest : List Move) : State :=
  ({ s.quiet with sched := rest } : State).latch inp

theorem step_host (hc : configOk s.cfg = true) (hs : s.sched = .host inp :: rest) :
    step s = hostStep (s.atPort inp rest) := step_move hc hs

theorem hostStep_held (hh : s.held = true) : hostStep s = .next s := by
  simp [hostStep, State.cmdReady, hh]

theorem hostStep_accepted (hh : s.held = false) (hd : decode s.cmdIn = .ok (i, ws)) (ha : s.accepts i = true) :
    hostStep s = exec i { s with cmdIn := ws } := by
  rw [hostStep_command hh hd, if_pos ha]

theorem hostStep_wrongMode (hh : s.held = false) (hd : decode s.cmdIn = .ok (i, ws)) (ha : s.accepts i = false) :
    hostStep s = .next { s with cmdIn := ws }.refuseCommand := by
  rw [hostStep_command hh hd, ha]
  rfl

theorem hostStep_illegal (hh : s.held = false) (hw : s.cmdIn = w :: ws) (hd : decode s.cmdIn = .error why)
    (hwhy : why ≠ .incompletePacket) :
    hostStep s = .next { s with cmdIn := s.cmdIn.drop (packetLength w) }.refuseCommand := by
  rw [hw] at hd
  simp only [hostStep, State.cmdReady, hh, hw, fetch_illegal hd hwhy]
  rfl

theorem accepts_iff : s.accepts i = true ↔ (s.run = true → i.isPush = true) := by
  cases hrun : s.run <;> simp [State.accepts, hrun]

/-- Settles O6: the port is ready and the mode accepts the command. -/
theorem stepRunsHostCommand : Obligations.StepRunsHostCommand := by
  intro s inp rest i ws hc hs hh hd haccepts
  have ha : (s.atPort inp rest).accepts i = true := accepts_iff.mpr haccepts
  exact (step_host hc hs).trans (hostStep_accepted (s := s.atPort inp rest) hh hd ha)

/-- Settles O9: the words are illegal in themselves, or the mode refuses the command. -/
theorem illegalCommandRefusedInPlace : Obligations.IllegalCommandRefusedInPlace := by
  intro s inp rest hc hs hh
  refine ⟨fun w ws why hw hd hwhy => ?_, fun i ws hd hrun hpush => ?_⟩
  · exact (step_host hc hs).trans (hostStep_illegal (s := s.atPort inp rest) hh hw hd hwhy)
  · have ha : (s.atPort inp rest).accepts i = false :=
      Bool.eq_false_iff.mpr fun h => absurd ((accepts_iff.mp h hrun).symm.trans hpush) (by decide)
    exact (step_host hc hs).trans (hostStep_wrongMode (s := s.atPort inp rest) hh hd ha)

/-- Settles O10: CL is in the middle of `SL_ENQ`, so the port is not ready. -/
theorem heldPortAcceptsNothing : Obligations.HeldPortAcceptsNothing := fun s inp rest hc hs hh =>
  (step_host hc hs).trans (hostStep_held (s := s.atPort inp rest) hh)

end Sys2Proof.Machine
end

section
/-! PROOFS. The family of `40_ring_buffer.md`: the push and the pop (O12, O13, O18), the bulk pushes (O14, O15, O16), and the
bounded FIFO that every sequence of commands sees (O17). -/

namespace Sys2Proof.Machine

open Sys2Proof

variable {s t : State} {cfg : Config} {n : Nat} {r : Ring} {bs : List Byte} {i : Instr}

/-! ### A push and a pop (R101, R102) -/

theorem exec_rbPush_full {b : Byte} (hr : s.ring.inRange s.cfg.rbSize = true)
    (hf : s.ring.isFull s.cfg.rbSize = true) : exec (.rbPush b) s = .next (s.ret { ok := false }) :=
  exec_rbPush_next.mpr ⟨hr, by rw [Ring.push_full hf]⟩

theorem exec_rbPush_room {b : Byte} (hr : s.ring.inRange s.cfg.rbSize = true)
    (hf : s.ring.isFull s.cfg.rbSize = false) :
    exec (.rbPush b) s = .next ({ s with
      ring := { s.ring with
        buf := memWrite s.ring.buf s.ring.head b, head := ringNext s.cfg.rbSize s.ring.head } }.ret { ok := true }) :=
  exec_rbPush_next.mpr ⟨hr, by rw [Ring.push_room hf]⟩

/-- Settles O12: the buffer is full or has room, and a write to the array is read back at its own slot only. -/
theorem pushStoresAtHead : Obligations.PushStoresAtHead := by
  intro b s hhead htail hwf
  have hr : s.ring.inRange s.cfg.rbSize = true := Ring.inRange_iff.mpr ⟨hhead, htail⟩
  refine ⟨rfl, fun hfull => ?_, fun hroom => ?_⟩
  · exact exec_rbPush_full hr (Ring.isFull_iff.mpr hfull)
  · have hf : s.ring.isFull s.cfg.rbSize = false := Bool.eq_false_iff.mpr (Ring.isFull_iff.not.mpr hroom)
    exact ⟨_, exec_rbPush_room hr hf, memRead_memWrite_same hwf _ b, fun a ha => memRead_memWrite_other ha b⟩

/-- Settles O13: the buffer is empty or has a byte at `tail`. -/
theorem popTakesAtTail : Obligations.PopTakesAtTail := by
  refine ⟨rfl, fun s hhead htail => ?_⟩
  have hr : s.ring.inRange s.cfg.rbSize = true := Ring.inRange_iff.mpr ⟨hhead, htail⟩
  refine ⟨fun hempty => ?_, fun hsome => ?_⟩
  · exact exec_rbPop_empty hr (Ring.isEmpty_iff.mpr hempty)
  · exact exec_rbPop_some hr (Bool.eq_false_iff.mpr (Ring.isEmpty_iff.not.mpr hsome))

/-- Settles O18: a pop finds the buffer empty, a push finds it full, at the two ends of the live count. -/
theorem failuresSayEmptyAndFull : Obligations.FailuresSayEmptyAndFull := by
  intro b s t hr
  rw [State.live, Ring.live_length, ← Ring.isEmpty_iff_count hr, ← Ring.isFull_iff_count hr]
  refine ⟨fun hpop => ?_, fun hpush => ?_⟩
  · obtain ⟨_, ⟨he, rfl⟩ | ⟨he, rfl⟩⟩ := exec_rbPop_next hpop <;> simp [State.result, he]
  · obtain ⟨_, rfl⟩ := exec_rbPush_next.mp hpush
    obtain ⟨hf, e⟩ | ⟨hf, e⟩ := Ring.push_cases s.cfg.rbSize b s.ring <;> simp [State.result, e, hf]

/-! ### Bytes stored one after the other (R101) -/

/-- The bytes stored from slot `head` on, `head` advanced past them; whether there is room is not asked. -/
def Ring.storeAll (n : Nat) : List Byte → Ring → Ring
  | [], r => r
  | b :: bs, r => Ring.storeAll n bs { r with buf := memWrite r.buf r.head b, head := ringNext n r.head }

theorem Ring.storeAll_tail (n : Nat) (bs : List Byte) (r : Ring) : (r.storeAll n bs).tail = r.tail := by
  induction bs generalizing r with
  | nil => rfl
  | cons b bs ih => exact ih _

theorem Ring.storeAll_head (hh : r.head < n) (bs : List Byte) :
    (r.storeAll n bs).head = (r.head + bs.length) % n := by
  induction bs generalizing r with
  | nil => exact (Nat.mod_eq_of_lt hh).symm
  | cons b bs ih =>
    rw [Ring.storeAll, ih (ringNext_lt (by omega) _), ringNext, Nat.mod_add_mod, List.length_cons, Nat.add_assoc,
      Nat.add_comm 1]

theorem Ring.memRead_storeAll_other (hh : r.head < n) {a : Nat} (ha : ∀ k, k < bs.length → a ≠ (r.head + k) % n) :
    memRead (r.storeAll n bs).buf a = memRead r.buf a := by
  induction bs generalizing r with
  | nil => rfl
  | cons b bs ih =>
    have hfirst : a ≠ r.head := fun e => ha 0 (Nat.succ_pos _) (e.trans (Nat.mod_eq_of_lt hh).symm)
    rw [Ring.storeAll, ih (ringNext_lt (by omega) _) fun k hk => ?_]
    · exact memRead_memWrite_other hfirst b
    · rw [ringNext, Nat.mod_add_mod, Nat.add_assoc, Nat.add_comm 1]
      exact ha (k + 1) (Nat.succ_lt_succ hk)

/-- No slot is written twice while the bytes are no more than the slots. -/
theorem Ring.memRead_storeAll_stored (hh : r.head < n) (hw : Memory.wf r.buf = true) (hlen : bs.length ≤ n) {k : Nat}
    {b : Byte} (hk : bs[k]? = some b) : memRead (r.storeAll n bs).buf ((r.head + k) % n) = b := by
  induction bs generalizing r k with
  | nil => cases hk
  | cons b' bs ih =>
    rw [List.length_cons] at hlen
    have hnext : ringNext n r.head < n := ringNext_lt (by omega) _
    cases k with
    | zero =>
      obtain rfl : b' = b := Option.some.inj hk
      rw [Nat.add_zero, Nat.mod_eq_of_lt hh, Ring.storeAll, Ring.memRead_storeAll_other hnext fun k hk => ?_]
      · exact memRead_memWrite_same hw r.head b'
      · rw [ringNext, Nat.mod_add_mod, Nat.add_assoc, liveIndex hh (by omega)]
        split <;> omega
    | succ k =>
      have hlater := ih (r := { r with buf := memWrite r.buf r.head b', head := ringNext n r.head }) hnext
        (memWrite_wf hw r.head b') (Nat.le_of_succ_le hlen) hk
      rwa [ringNext, Nat.mod_add_mod, Nat.add_assoc, Nat.add_comm 1] at hlater

/-! ### Room for pushes (R100) -/

theorem Ring.space_of_full (h : r.inRange n = true) (hf : r.isFull n = true) : r.space n = 0 := by
  rw [Ring.space, (Ring.isFull_iff_count h).mp hf, Nat.sub_self]

/-- A successful push takes one of the places. -/
theorem Ring.space_of_room (h : r.inRange n = true) (hw : Memory.wf r.buf = true) (hf : r.isFull n = false) (b : Byte) :
    r.space n = ({ r with buf := memWrite r.buf r.head b, head := ringNext n r.head } : Ring).space n + 1 := by
  have hcount := congrArg List.length (Ring.live_push (b := b) h hw hf)
  rw [List.length_append, Ring.live_length, Ring.live_length, List.length_singleton] at hcount
  have hlt := Ring.count_lt (Ring.inRange_push (memWrite r.buf r.head b) h)
  rw [Ring.space, Ring.space]
  omega

/-- Bytes stored while there is room become the newest live ones, in order. -/
theorem Ring.live_storeAll (h : r.inRange n = true) (hw : Memory.wf r.buf = true) (hlen : bs.length ≤ r.space n) :
    (r.storeAll n bs).live n = r.live n ++ bs := by
  induction bs generalizing r with
  | nil => exact (List.append_nil _).symm
  | cons b bs ih =>
    cases hf : r.isFull n with
    | true => rw [Ring.space_of_full h hf] at hlen; cases hlen
    | false =>
      rw [Ring.space_of_room h hw hf b, List.length_cons] at hlen
      rw [Ring.storeAll, ih (Ring.inRange_push _ h) (memWrite_wf hw _ b) (Nat.le_of_succ_le_succ hlen),
        Ring.live_push h hw hf, List.append_assoc, List.singleton_append]

/-! ### What a bulk push takes (R103) -/

/-- The bytes a bulk push takes while there is room: all, or, stopping on the sentinel, those before it, and the sentinel
too where it is enqueued (D10; log 13). -/
def bulkText (cfg : Config) (stop : Bool) : List Byte → List Byte
  | [] => []
  | b :: bs =>
    if stop && b == cfg.sentinel then if cfg.sentinelEnqueued then [b] else []
    else b :: bulkText cfg stop bs

theorem bulkText_all (cfg : Config) (bs : List Byte) : bulkText cfg false bs = bs := by
  induction bs with
  | nil => rfl
  | cons b bs ih => simp [bulkText, ih]

theorem bulkText_before_sentinel (hc : cfg.sentinelEnqueued = false) (bs : List Byte) :
    bulkText cfg true bs = bs.takeWhile (fun b => b != cfg.sentinel) := by
  induction bs with
  | nil => rfl
  | cons b bs ih => by_cases hb : b = cfg.sentinel <;> simp [bulkText, hc, ih, hb]

theorem bulkText_with_sentinel (hc : cfg.sentinelEnqueued = true) (bs : List Byte) :
    bulkText cfg true bs = bs.take ((bs.takeWhile (fun b => b != cfg.sentinel)).length + 1) := by
  induction bs with
  | nil => rfl
  | cons b bs ih => by_cases hb : b = cfg.sentinel <;> simp [bulkText, hc, ih, hb]

/-- The bytes taken are the first of the payload. -/
theorem bulkText_prefix (cfg : Config) (stop : Bool) (bs : List Byte) : bulkText cfg stop bs <+: bs := by
  induction bs with
  | nil => exact List.prefix_rfl
  | cons b bs ih =>
    rw [bulkText]
    split_ifs
    · exact List.prefix_append [b] bs
    · exact List.nil_prefix
    · exact List.cons_prefix_cons.mpr ⟨rfl, ih⟩

/-- The bytes a bulk push enqueues: of those it takes, the first ones for which there is room (R104, R105). -/
def Ring.accepted (cfg : Config) (stop : Bool) (bs : List Byte) (r : Ring) : List Byte :=
  (bulkText cfg stop bs).take (r.space cfg.rbSize)

theorem Ring.accepted_length (cfg : Config) (stop : Bool) (bs : List Byte) (r : Ring) :
    (r.accepted cfg stop bs).length = min (bulkText cfg stop bs).length (r.space cfg.rbSize) := by
  rw [Ring.accepted, List.length_take, Nat.min_comm]

theorem Ring.accepted_prefix (cfg : Config) (stop : Bool) (bs : List Byte) (r : Ring) : r.accepted cfg stop bs <+: bs :=
  (List.take_prefix _ _).trans (bulkText_prefix cfg stop bs)

/-- A bulk push stores the bytes it enqueues one after the other and answers their number (R103). -/
theorem Ring.bulkPush_eq (h : r.inRange cfg.rbSize = true) (hw : Memory.wf r.buf = true) (stop : Bool) (bs : List Byte) :
    r.bulkPush cfg stop bs = (r.storeAll cfg.rbSize (r.accepted cfg stop bs), (r.accepted cfg stop bs).length) := by
  induction bs generalizing r with
  | nil => simp [Ring.bulkPush, Ring.accepted, bulkText, Ring.storeAll]
  | cons b bs ih =>
    cases hf : r.isFull cfg.rbSize with
    | true =>
      rw [Ring.accepted, Ring.space_of_full h hf]
      simp only [Ring.bulkPush, Ring.push_full hf]
      split_ifs <;> rfl
    | false =>
      rw [Ring.accepted, Ring.space_of_room h hw hf b]
      simp only [Ring.bulkPush, Ring.push_room hf, bulkText]
      split_ifs
      · rw [List.take_succ_cons, List.take_nil]; rfl
      · rfl
      · rw [ih (Ring.inRange_push _ h) (memWrite_wf hw _ b)]; rfl

theorem exec_bulkInstr (hr : s.ring.inRange s.cfg.rbSize = true) (stop : Bool) (bs : List Byte) :
    exec (bulkInstr stop bs) s = .next (s.bulk stop bs) := by
  cases stop <;> exact ringGuard_of_inRange hr

/-- What the bulk push `i` does to the state where it takes the bytes `text`: the first `min(LEN, space)` of them are stored
from slot `head` on and counted, and nothing else changes. -/
def State.EnqueuesWhatFits (s : State) (i : Instr) (text : List Byte) : Prop :=
  let n := s.cfg.rbSize
  let count := min text.length (n - 1 - (s.ring.head + n - s.ring.tail) % n)
  ∃ buf, exec i s = .next { s with
      ring := { buf := buf, head := (s.ring.head + count) % n, tail := s.ring.tail }
      out := { res := some { count := BitVec.ofNat 8 count }, tx := none } } ∧
    (∀ k b, text[k]? = some b → k < count → memRead buf ((s.ring.head + k) % n) = b) ∧
    ∀ a, (∀ k, k < count → a ≠ (s.ring.head + k) % n) → memRead buf a = memRead s.ring.buf a

theorem bulkInstr_enqueuesWhatFits (hhead : s.ring.head < s.cfg.rbSize) (htail : s.ring.tail < s.cfg.rbSize)
    (hw : Memory.wf s.ring.buf = true) (stop : Bool) (bs : List Byte) :
    s.EnqueuesWhatFits (bulkInstr stop bs) (bulkText s.cfg stop bs) := by
  have hr : s.ring.inRange s.cfg.rbSize = true := Ring.inRange_iff.mpr ⟨hhead, htail⟩
  have hcount := Ring.accepted_length s.cfg stop bs s.ring
  rw [Ring.space, Ring.count] at hcount
  have hfits : (s.ring.accepted s.cfg stop bs).length ≤ s.cfg.rbSize := by omega
  refine ⟨(s.ring.storeAll s.cfg.rbSize (s.ring.accepted s.cfg stop bs)).buf, ?_, fun k b hk hlt => ?_, fun a ha => ?_⟩
  · rw [exec_bulkInstr hr, State.bulk, Ring.bulkPush_eq hr hw, ← hcount, ← Ring.storeAll_head hhead,
      ← Ring.storeAll_tail s.cfg.rbSize (s.ring.accepted s.cfg stop bs) s.ring]
    rfl
  · have hspace : k < s.ring.space s.cfg.rbSize := (Nat.lt_min.mp hlt).2
    exact Ring.memRead_storeAll_stored hhead hw hfits ((List.getElem?_take_of_lt hspace).trans hk)
  · exact Ring.memRead_storeAll_other hhead (hcount ▸ ha)

/-- Settles O14: with no sentinel to stop on, the whole payload is taken. -/
theorem bulkPushEnqueuesWhatFits : Obligations.BulkPushEnqueuesWhatFits := by
  intro bs s _ hhead htail hw
  have h := bulkInstr_enqueuesWhatFits hhead htail hw false bs
  rw [bulkText_all] at h
  exact ⟨rfl, h⟩

/-- Settles O15: the bytes before the first sentinel are taken. -/
theorem bulkPushStopsBeforeSentinel : Obligations.BulkPushStopsBeforeSentinel := by
  intro bs s _ hc hhead htail hw
  have h := bulkInstr_enqueuesWhatFits hhead htail hw true bs
  rw [bulkText_before_sentinel hc] at h
  exact ⟨rfl, h⟩

/-- Settles O16: the bytes up to and with the first sentinel are taken. -/
theorem bulkPushMayEnqueueSentinel : Obligations.BulkPushMayEnqueueSentinel := by
  intro bs s _ hc hhead htail hw
  have h := bulkInstr_enqueuesWhatFits hhead htail hw true bs
  rw [bulkText_with_sentinel hc] at h
  exact h

/-! ### A bounded FIFO (R106) -/

/-- A command keeps `head` and `tail` in range and the array in canonical form. -/
theorem exec_keeps_ring (hr : s.ring.inRange s.cfg.rbSize = true) (hw : Memory.wf s.ring.buf = true)
    (he : exec i s = .next t) : t.ring.inRange t.cfg.rbSize = true ∧ Memory.wf t.ring.buf = true := by
  have hsame : s.ring.SameLive s.cfg.rbSize s.ring := ⟨hr, hw, hw, rfl, rfl, rfl⟩
  obtain ⟨_, _, h⟩ := exec_sameLive hsame he
  rw [(exec_environment he).1]
  exact ⟨h.inRange, h.wf⟩

/-- The traffic of one command, by its result: what it took out, followed by what is live after it, is what was live
before it, followed by what it put in. -/
def State.FifoStep (s t : State) (i : Instr) : Prop :=
  poppedBytes t.result i ++ t.live = s.live ++ acceptedBytes t.result i

/-- The count of a bulk push's result fits its 8 bits, so that it names the bytes enqueued. -/
theorem take_count_of_accepted (hfits : payloadFits bs = true) (cfg : Config) (stop : Bool) (r : Ring) :
    bs.take (BitVec.ofNat 8 (r.accepted cfg stop bs).length).toNat = r.accepted cfg stop bs := by
  have hprefix := Ring.accepted_prefix cfg stop bs r
  have hlen : bs.length ≤ 255 := of_decide_eq_true hfits
  have hle := hprefix.length_le
  rw [BitVec.toNat_ofNat, Nat.mod_eq_of_lt (by omega)]
  exact (List.prefix_iff_eq_take.mp hprefix).symm

theorem fifoStep_bulk (hr : s.ring.inRange s.cfg.rbSize = true) (hw : Memory.wf s.ring.buf = true)
    (hfits : payloadFits bs = true) (stop : Bool) :
    s.FifoStep (s.bulk stop bs) (bulkInstr stop bs) := by
  have hlive : (s.bulk stop bs).live = s.live ++ bs.take (s.bulk stop bs).result.count.toNat := by
    simp only [State.live, State.result, bulk_ring, bulk_cfg, bulk_out, Ring.bulkPush_eq hr hw, Option.getD_some,
      take_count_of_accepted hfits]
    exact Ring.live_storeAll hr hw (by rw [Ring.accepted_length]; exact Nat.min_le_right _ _)
  cases stop <;> exact hlive

theorem fifoStep_rbPush {b : Byte} (hr : s.ring.inRange s.cfg.rbSize = true) (hw : Memory.wf s.ring.buf = true)
    (he : exec (.rbPush b) s = .next t) : s.FifoStep t (.rbPush b) := by
  cases hf : s.ring.isFull s.cfg.rbSize with
  | true =>
    cases (exec_rbPush_full hr hf).symm.trans he
    exact (List.append_nil _).symm
  | false =>
    cases (exec_rbPush_room hr hf).symm.trans he
    exact Ring.live_push hr hw hf

/-- Every command on a ring buffer with its indices in range and its array in canonical form. -/
theorem exec_fifoStep (hi : WellFormed i) (hr : s.ring.inRange s.cfg.rbSize = true)
    (hw : Memory.wf s.ring.buf = true) (he : exec i s = .next t) : s.FifoStep t i := by
  have hunused : i.usesRing = false → t.live = s.live ++ [] := fun hu => by
    rw [State.live, State.live, exec_ring he hu, (exec_environment he).1, List.append_nil]
  cases i with
  | rbPush b => exact fifoStep_rbPush hr hw he
  | rbPushB bytes =>
    obtain ⟨_, rfl⟩ := exec_rbPushB_next.mp he
    exact fifoStep_bulk hr hw hi false
  | rbPushBS bytes =>
    obtain ⟨_, rfl⟩ := exec_rbPushBS_next.mp he
    exact fifoStep_bulk hr hw hi true
  | rbPop =>
    obtain ⟨_, ⟨_, rfl⟩ | ⟨hsome, rfl⟩⟩ := exec_rbPop_next he
    · exact (List.append_nil _).symm
    · exact (Ring.live_pop hr hsome).symm.trans (List.append_nil _).symm
  | egXfer =>
    obtain ⟨_, ⟨_, rfl⟩ | ⟨_, hsome, rfl⟩⟩ := exec_egXfer_next he
    · exact (List.append_nil _).symm
    · exact (Ring.live_pop hr hsome).symm.trans (List.append_nil _).symm
  | _ => exact hunused rfl

theorem ringTraffic_cons {is : List Instr} {acc pop : List Byte} {u : State} (he : exec i s = .next t)
    (h : ringTraffic is t = some (acc, pop, u)) :
    ringTraffic (i :: is) s = some (acceptedBytes t.result i ++ acc, poppedBytes t.result i ++ pop, u) := by
  rw [ringTraffic, he]
  simp only [h]

/-- Settles O17, by induction over the commands: each completes, its traffic is FIFO, and it keeps the ring buffer fit for
the next. -/
theorem ringTrafficIsFifo : Obligations.RingTrafficIsFifo := by
  intro is
  induction is with
  | nil =>
    intro s _ hr _
    refine ⟨[], [], s, rfl, (List.append_nil _).symm, ?_⟩
    rw [State.live, Ring.live_length]
    exact Nat.le_sub_one_of_lt (Ring.count_lt hr)
  | cons i is ih =>
    intro s hwf hr hw
    obtain ⟨hi, his⟩ := List.forall_mem_cons.mp hwf
    obtain ⟨t, he⟩ := exec_answers i hr
    obtain ⟨hr', hw'⟩ := exec_keeps_ring hr hw he
    obtain ⟨acc, pop, u, htraffic, hfifo, hbound⟩ := ih t his hr' hw'
    refine ⟨_, _, u, ringTraffic_cons he htraffic, ?_, (exec_environment he).1 ▸ hbound⟩
    calc poppedBytes t.result i ++ pop ++ u.live
      _ = poppedBytes t.result i ++ t.live ++ acc := by rw [List.append_assoc, hfifo, List.append_assoc]
      _ = s.live ++ (acceptedBytes t.result i ++ acc) := by rw [exec_fifoStep hi hr hw he, List.append_assoc]

end Sys2Proof.Machine
end

section
/-! PROOFS. The family of `41_debounce.md`: the sample step (O21), the edge step (O22), what may flip `stable` (O23), what
decides it (O24), and one edge for each rise (O25). -/

namespace Sys2Proof.Machine

open Sys2Proof

variable {s t u v : State} {i : Inputs}

/-! ### The time gate and the consensus (R121, R123) -/

/-- The model's subtraction on natural numbers is the difference of the spec, computed on integers. -/
theorem elapsed_eq_int {w tLast : Nat} (now : Nat) (h : tLast < 2 ^ w) :
    (elapsed w now tLast : Int) = ((now : Int) - tLast) % (2 ^ w : Nat) := by
  rw [elapsed, Nat.mod_eq_of_lt h, Int.natCast_emod, Int.natCast_add, Int.natCast_sub h.le,
    ← Int.add_emod_right (now - tLast : Int)]
  congr 1
  omega

theorem gatePasses_iff (h : s.tLast < 2 ^ s.cfg.timeW) :
    s.gatePasses = true ↔
      ((10 * s.cfg.ticksPerMs : Nat) : Int) ≤ ((s.inp.now : Int) - s.tLast) % (2 ^ s.cfg.timeW : Nat) := by
  rw [← elapsed_eq_int s.inp.now h, Int.ofNat_le, State.gatePasses, intervalTicks, decide_eq_true_iff]

theorem consensus_eq (a b c old : Bool) : consensus a b c old =
    if a = true ∧ b = true ∧ c = true then true else if a = false ∧ b = false ∧ c = false then false else old := by
  simp [consensus, and_assoc]

@[simp] theorem consensus_same (x old : Bool) : consensus x x x old = x := by
  cases x <;> rfl

/-- Only three samples that agree move the consensus. -/
theorem consensus_unanimous {a b c old : Bool} (h : consensus a b c old ≠ old) :
    a = consensus a b c old ∧ b = consensus a b c old ∧ c = consensus a b c old := by
  rw [consensus_eq] at h ⊢
  split at h
  · next htrue => rw [if_pos htrue]; exact htrue
  · next htrue =>
    split at h
    · next hfalse => rw [if_neg htrue, if_pos hfalse]; exact hfalse
    · exact absurd rfl h

/-! ### A sample step (R121, R122) -/

theorem exec_dbSample_open (hg : s.gatePasses = true) : exec .dbSample s = .next (s.takeSample.ret {}) := by
  rw [exec_dbSample, if_pos hg]

theorem exec_dbSample_closed (hg : ¬ s.gatePasses = true) : exec .dbSample s = .next (s.ret {}) := by
  rw [exec_dbSample, if_neg hg]

theorem exec_dbSample_prev (he : exec .dbSample s = .next t) : t.prev = s.prev := by
  cases he
  split <;> rfl

/-- Settles O21: the gate on natural numbers is the gate on integers, and the two branches of `DB_SAMPLE` are its two
sides. -/
theorem sampleStep : Obligations.SampleStep := by
  refine ⟨rfl, fun s _ htLast => ⟨fun hopen => ?_, fun hclosed => ?_⟩⟩
  · rw [exec_dbSample_open ((gatePasses_iff htLast).mpr hopen), ← consensus_eq]
    rfl
  · exact exec_dbSample_closed fun hg => absurd ((gatePasses_iff htLast).mp hg) (not_le.mpr hclosed)

/-! ### What flips `stable` (R125 (a), (b)) -/

/-- Settles O23: by the table of writers only `DB_SAMPLE` writes `stable`, and then only as the consensus moves. -/
theorem stableFlipsOnlyUnanimously : Obligations.StableFlipsOnlyUnanimously := by
  intro i s t he hflip
  obtain ⟨_, _, rfl | ⟨_, _, _, hkept, _⟩, _⟩ := onlyTheTablesWritersWrite i s t he
  · by_cases hg : s.gatePasses = true
    · cases (exec_dbSample_open hg).symm.trans he
      exact ⟨rfl, hg, consensus_unanimous hflip⟩
    · cases (exec_dbSample_closed hg).symm.trans he
      exact absurd rfl hflip
  · exact absurd hkept hflip

/-- Settles O24: the third sample finds the first two in the register, and the consensus of three equal samples is their
value. -/
theorem threeAgreeingSamplesDecide : Obligations.ThreeAgreeingSamplesDecide := by
  intro v a b c s t u w ht hu hw hga hgb hgc ha hb hc
  cases (exec_dbSample_open hga).symm.trans ht
  cases (exec_dbSample_open hgb).symm.trans hu
  cases (exec_dbSample_open hgc).symm.trans hw
  simp [ha, hb, hc]

/-! ### An edge step (R124) -/

/-- Settles O22: `prev` is `stable` after the first edge step, so the second finds no rise. -/
theorem edgeStep : Obligations.EdgeStep := by
  refine ⟨rfl, fun s => ⟨exec_dbEdge s, fun t u ht hu => ?_⟩⟩
  cases (exec_dbEdge s).symm.trans ht
  cases (exec_dbEdge _).symm.trans hu
  have hpulse : risingEdge s.stable s.stable = false := Bool.not_and_self _
  exact ⟨hpulse, hpulse⟩

/-! ### One edge for each rise (R125 (c)) -/

theorem debounceTraffic_cons {is : List Inputs} {edges rises : Nat}
    (ht : exec .dbSample { s with inp := i } = .next t) (hu : exec .dbEdge t = .next u)
    (h : debounceTraffic is u = some (edges, rises, v)) :
    debounceTraffic (i :: is) s = some (if u.result.edge then edges + 1 else edges,
      if !s.stable && t.stable then rises + 1 else rises, v) := by
  rw [debounceTraffic, ht]
  simp only [hu, h]

/-- Settles O25, by induction over the inputs: a sample leaves `prev` at the old `stable`, so the edge step after it gives 1
exactly when the sample raised `stable`, and it makes `prev` follow for the next pair. -/
theorem oneEdgePerRise : Obligations.OneEdgePerRise := by
  intro is
  induction is with
  | nil => exact fun s hs => ⟨0, s, rfl, hs⟩
  | cons i is ih =>
    intro s hs
    obtain ⟨t, ht⟩ : ∃ t, exec .dbSample { s with inp := i } = .next t := ⟨_, exec_dbSample _⟩
    have hprev : t.prev = s.stable := (exec_dbSample_prev ht).trans hs
    obtain ⟨u, hu, hedge, hfollows⟩ :
        ∃ u, exec .dbEdge t = .next u ∧ u.result.edge = (!t.prev && t.stable) ∧ u.prev = u.stable :=
      ⟨_, exec_dbEdge t, rfl, rfl⟩
    obtain ⟨k, v, htraffic, hv⟩ := ih u hfollows
    refine ⟨if !s.stable && t.stable then k + 1 else k, v, ?_, hv⟩
    rw [debounceTraffic_cons ht hu htraffic, hedge, hprev]

end Sys2Proof.Machine
end

section
/-! PROOFS. The family of `42_seven_segment.md`: the indicator shows the page while the sequencer runs (O29), the encoder
(O26), and the commands that drive the lines (O27). -/

namespace Sys2Proof.Machine

open Sys2Proof

variable {s t b : State} {cfg : Config} {d : Byte} {i : Instr}

/-! ### What keeps the indicator showing the page (R143) -/

namespace State.IndicatorShowsPage

theorem before (h : s.IndicatorShowsPage) (hb : s.Before b) : b.IndicatorShowsPage := by
  rw [hb.1]
  exact h

theorem deStart (h : s.IndicatorShowsPage) : (deStart s).IndicatorShowsPage := by
  obtain e | ⟨_, _, e⟩ := deStart_cases s <;> rw [e] <;> exact h

theorem deTake (h : s.IndicatorShowsPage) : (deTake s).IndicatorShowsPage := by
  obtain e | ⟨_, _, _, _, e⟩ := deTake_cases s <;> rw [e] <;> exact h

theorem deRet (h : s.IndicatorShowsPage) (choice : Nat) : (deRet choice s).IndicatorShowsPage := by
  obtain e | ⟨_, _, _, _, e⟩ := deRet_cases choice s <;> rw [e] <;> exact h

/-- Only `SEG_SHOW` drives the lines with anything but the page's digit: `SEG_PAGE` and `PG_STEP` drive them with that digit,
and no other command writes the page or the lines. -/
theorem exec (h : s.IndicatorShowsPage) (hi : ∀ d, i ≠ .segShow d) (he : exec i s = .next t) : t.IndicatorShowsPage := by
  have hw := exec_onlyTableWrites he
  cases i with
  | segShow d => exact absurd rfl (hi d)
  | segPage => cases he; rfl
  | pgStep =>
    obtain ⟨hedge, _⟩ | ⟨_, hw⟩ := hw
    · cases (exec_pgStep_edge hedge).symm.trans he; rfl
    · rw [hw]; exact h
  | _ => rw [hw]; exact h

end State.IndicatorShowsPage

theorem not_accepts_segShow (hr : s.run = true) (d : Byte) : s.accepts (.segShow d) = false := by
  simp [State.accepts, hr, Instr.isPush]

/-- The loop's commands, in the order of R185. -/
theorem loopInstr_mem : ∀ p : BitVec 3,
    loopInstr p ∈ [Instr.dbSample, .dbEdge, .pgStep, .egXfer, .slAddr, .slEnq, .slDrain1, .slLine] := by decide

theorem loopInstr_ne_segShow (p : BitVec 3) (d : Byte) : loopInstr p ≠ .segShow d := by
  intro hp
  have hmem := loopInstr_mem p
  simp [hp] at hmem

/-- With `run` = 1 no `SEG_SHOW` runs: the port refuses it (R86 (e)) and the loop holds none (R185). -/
theorem ClMove.keeps_indicator (h : s.IndicatorShowsPage) (hr : s.run = true) (hm : ClMove s b t) :
    t.IndicatorShowsPage := by
  cases hm with
  | nothing ht => exact h.before ht
  | host i rest hb _ _ haccepts he =>
    refine (h.before hb).exec (fun d hi => ?_) he
    rw [hi, not_accepts_segShow hr] at haccepts
    cases haccepts
  | sequencer u hb _ he ht =>
    have hu : u.IndicatorShowsPage := (h.before hb).exec (loopInstr_ne_segShow _) he
    exact ht ▸ hu
  | retry hb _ _ he => exact (h.before hb).exec (i := .slEnq) nofun he

/-- Settles O29: `run` stays by the rule of `SYS_RUN`, and each move a step can be keeps the indicator. -/
theorem indicatorKeepsShowingPage : Obligations.IndicatorKeepsShowingPage := by
  intro s t hr h hn hstep
  refine ⟨(runSetOnlyBySysRun s t hn hstep).1 hr, ?_⟩
  obtain ⟨_, hm⟩ := step_cases hstep
  cases hm with
  | cl b hcl => exact hcl.keeps_indicator h hr
  | deStart b hb ht => exact ht ▸ (h.before hb).deStart
  | deTake b hb ht => exact ht ▸ (h.before hb).deTake
  | deRet b choice hb ht => exact ht ▸ (h.before hb).deRet choice
  | rst b contents _ hrst => exact absurd (hn.symm.trans hrst) (by decide)

/-! ### The encoder (R138, R139) -/

theorem seg_of_ten_le (hd : 10 ≤ d.toNat) : seg cfg d = 0xFF := if_neg (by omega)

/-- The table of a sound configuration has an entry for each digit. -/
theorem segTable_getElem? (hc : configOk cfg = true) (hd : d.toNat ≤ 9) : cfg.segTable[d.toNat]? = some (seg cfg d) := by
  obtain ⟨_, _, _, _, _, _, _, _, _, _, hlength, _⟩ := (configOk_iff cfg).mp hc
  have hlt : d.toNat < cfg.segTable.length := by omega
  rw [seg, if_pos hd, List.getD_eq_getElem _ _ hlt, List.getElem?_eq_getElem hlt]

/-- Settles O26: the encoder answers the table's entry, which exists for a digit, or the blank pattern. -/
theorem encoderIsTheTable : Obligations.EncoderIsTheTable := by
  refine fun d s hc => ⟨rfl, fun hd => ⟨seg s.cfg d, segTable_getElem? hc hd, exec_segEnc d s⟩, fun hd => ?_⟩
  rw [exec_segEnc, seg_of_ten_le hd]
  rfl

/-! ### Driving the lines (R140, R141) -/

theorem digitOf_toNat (page : Nat) : (digitOf page).toNat = (page + 1) % 256 := BitVec.toNat_ofNat _ _

/-- Settles O27: both commands drive the lines with the encoding of their digit, and the page's digit is a byte. -/
theorem showDrivesTheLines : Obligations.ShowDrivesTheLines := by
  refine fun d s => ⟨rfl, rfl, exec_segShow d s, ?_⟩
  rw [exec_segPage, ← digitOf_toNat]
  rfl

end Sys2Proof.Machine
end

section
/-! PROOFS. The family of `43_scanline_pipeline.md`: the latch of a running iteration (O37), the account of the addresses
handed to the engine (O39), `ScanAddr` and the four commands (O30 to O34), the drain loop and the sweep (O35, O36), the
engine's moves (O38), and what lifts a held `SL_ENQ` (O40, O41). -/

namespace Sys2Proof.Machine

open Sys2Proof

variable {s t u b : State} {cfg : Config} {i : Instr} {p l p' l' : Nat}

/-! ### The latch of a running iteration (R157) -/

/-- The latch and what it should hold change only by `SL_ADDR`, `SL_LINE` and `PG_STEP`. -/
theorem exec_latch (he : exec i s = .next t) (haddr : i ≠ .slAddr) (hline : i ≠ .slLine) (hpage : i ≠ .pgStep) :
    t.slAddr = s.slAddr ∧ t.scanWord = s.scanWord := by
  obtain ⟨_, _, _, _, page, line, latch, _, _, _, _, _, _, _, config, _⟩ := onlyTheTablesWritersWrite i s t he
  have page_eq : t.page = s.page := page.resolve_left fun h => hpage h.1
  have line_eq : t.line = s.line := line.resolve_left hline
  exact ⟨latch.resolve_left haddr, by rw [State.scanWord, config, page_eq, line_eq, State.scanWord]⟩

theorem not_latched_phase_zero : ¬ ((0 : BitVec 3) = 5 ∨ (0 : BitVec 3) = 6 ∨ (0 : BitVec 3) = 7) := by decide

/-- The sequencer is past `SL_ADDR` only after a step at phase 4, 5 or 6 (R186). -/
theorem phase_of_nextPhase {ph : BitVec 3} (h : nextPhase ph t = 5 ∨ nextPhase ph t = 6 ∨ nextPhase ph t = 7) :
    ph = 4 ∨ ph = 5 ∨ ph = 6 := by
  by_cases h5 : ph = 5
  · exact .inr (.inl h5)
  by_cases h6 : ph = 6
  · exact .inr (.inr h6)
  simp only [nextPhase, h5, h6, if_false] at h
  revert ph
  decide

namespace State.LatchIsCurrent

theorem of_not_run (hr : s.run = false) : s.LatchIsCurrent := fun h => absurd (hr.symm.trans h) (by decide)

theorem before (h : s.LatchIsCurrent) (hb : s.Before b) : b.LatchIsCurrent := by
  rw [hb.1]
  exact h

theorem deStart (h : s.LatchIsCurrent) : (deStart s).LatchIsCurrent := by
  obtain e | ⟨_, _, e⟩ := deStart_cases s <;> rw [e] <;> exact h

theorem deTake (h : s.LatchIsCurrent) : (deTake s).LatchIsCurrent := by
  obtain e | ⟨_, _, _, _, e⟩ := deTake_cases s <;> rw [e] <;> exact h

theorem deRet (h : s.LatchIsCurrent) (choice : Nat) : (deRet choice s).LatchIsCurrent := by
  obtain e | ⟨_, _, _, _, e⟩ := deRet_cases choice s <;> rw [e] <;> exact h

/-- A push writes neither the sequencer nor the latch nor what the latch should hold. -/
theorem push (h : s.LatchIsCurrent) (hi : i.isPush = true) (he : exec i s = .next t) : t.LatchIsCurrent := by
  have hw := exec_onlyTableWrites he
  cases i with
  | rbPush _ | rbPushB _ | rbPushBS _ => rw [hw]; exact h
  | _ => cases hi

/-- A host command with `run` = 0 leaves the sequencer off, or is `SYS_RUN`, which starts it at phase 0. -/
theorem host (hr : s.run = false) (he : exec i s = .next t) : t.LatchIsCurrent := by
  by_cases hi : i = .sysRun
  · subst hi
    cases he
    exact fun _ hphase => absurd hphase not_latched_phase_zero
  · exact of_not_run ((exec_run he hi).trans hr)

/-- The sequencer's step: `SL_ADDR` at phase 4 makes the latch current; the enqueue and the drain leave it so. -/
theorem sequencer (h : s.LatchIsCurrent) (hr : s.run = true) (he : exec (loopInstr s.phase) s = .next u) :
    (u.advance s.phase).LatchIsCurrent := by
  intro _ hphase
  obtain h4 | h5 | h6 := phase_of_nextPhase hphase
  · rw [h4, loopInstr_4, exec_slAddr] at he
    cases he
    rfl
  · rw [h5, loopInstr_5] at he
    obtain ⟨latch, word⟩ := exec_latch he nofun nofun nofun
    exact latch.trans ((h hr (.inl h5)).trans word.symm)
  · rw [h6, loopInstr_6] at he
    obtain ⟨latch, word⟩ := exec_latch he nofun nofun nofun
    exact latch.trans ((h hr (.inr (.inl h6))).trans word.symm)

end State.LatchIsCurrent

theorem State.Before.phase_eq (hb : s.Before b) : b.phase = s.phase := by rw [hb.1]

theorem ClMove.keeps_latch (h : s.LatchIsCurrent) (hm : ClMove s b t) : t.LatchIsCurrent := by
  cases hm with
  | nothing ht => exact h.before ht
  | host i rest hb _ _ haccepts he =>
    cases hr : s.run with
    | true => exact (h.before hb).push (accepts_iff.mp haccepts hr) he
    | false => exact .host (hb.run_eq.trans hr) he
  | sequencer u hb hr he ht =>
    rw [← hb.phase_eq] at he
    rw [ht, ← hb.phase_eq]
    exact (h.before hb).sequencer (hb.run_eq.trans hr) he
  | retry hb hr _ he => exact .host (hb.run_eq.trans hr) he

/-- Settles O37: each move a step can be keeps the latch current. -/
theorem latchStaysCurrent : Obligations.LatchStaysCurrent := by
  intro s t h hstep
  obtain ⟨_, hm⟩ := step_cases hstep
  cases hm with
  | cl b hcl => exact hcl.keeps_latch h
  | deStart b hb ht => exact ht ▸ (h.before hb).deStart
  | deTake b hb ht => exact ht ▸ (h.before hb).deTake
  | deRet b choice hb ht => exact ht ▸ (h.before hb).deRet choice
  | rst b contents _ _ ht => exact ht ▸ .of_not_run rfl

/-! ### The account of the addresses (R158, R164, R166) -/

namespace State.HandoffAccounted

theorem before (h : s.HandoffAccounted) (hb : s.Before b) : b.HandoffAccounted := by
  rw [hb.1]
  exact h

theorem deStart (h : s.HandoffAccounted) : (deStart s).HandoffAccounted := by
  obtain e | ⟨_, _, e⟩ := deStart_cases s <;> rw [e] <;> exact h

/-- The address taken goes from the front of `valid` to the end of what was enqueued before it. -/
theorem deTake (h : s.HandoffAccounted) : (deTake s).HandoffAccounted := by
  obtain e | ⟨a, rest, _, hvalid, e⟩ := deTake_cases s <;> rw [e]
  · exact h
  · obtain ⟨before, hlog, hcount⟩ := h
    refine ⟨before ++ [a], by simp [hlog, hvalid], fun x => ?_⟩
    have accounted := hcount x
    simp only [List.count_append]
    omega

/-- The address returned is one occurrence less with the engine and one more on `free`. -/
theorem deRet (h : s.HandoffAccounted) (choice : Nat) : (deRet choice s).HandoffAccounted := by
  obtain e | ⟨k, a, hheld, _, e⟩ := deRet_cases choice s <;> rw [e]
  · exact h
  · obtain ⟨before, hlog, hcount⟩ := h
    refine ⟨before, hlog, fun x => ?_⟩
    obtain ⟨hk, rfl⟩ := List.getElem?_eq_some_iff.mp hheld
    have held_perm : (s.deHeld.eraseIdx k).count x + [s.deHeld[k]].count x = s.deHeld.count x := by
      rw [← List.count_append]
      exact (List.perm_append_singleton _ _).trans (List.getElem_cons_eraseIdx_perm hk) |>.count_eq x
    have accounted := hcount x
    simp only [List.count_append]
    omega

/-- `SL_ENQ` extends the history and `valid` alike; `SL_DRAIN1` only takes from `free`. -/
theorem exec (h : s.HandoffAccounted) (he : exec i s = .next t) : t.HandoffAccounted := by
  have hw := exec_onlyTableWrites he
  cases i with
  | slEnq =>
    cases hf : s.validFull with
    | true => cases (exec_slEnq_hold hf).symm.trans he; exact h
    | false =>
      cases (exec_slEnq_room hf).symm.trans he
      obtain ⟨before, hlog, hcount⟩ := h
      exact ⟨before, by simp [hlog], hcount⟩
  | slDrain1 =>
    cases hf : s.free with
    | nil => cases (exec_slDrain1_nil hf).symm.trans he; exact h
    | cons a rest =>
      cases (exec_slDrain1_cons hf).symm.trans he
      obtain ⟨before, hlog, hcount⟩ := h
      refine ⟨before, hlog, fun x => le_trans ?_ (hcount x)⟩
      exact Nat.add_le_add_left (hf ▸ List.count_le_count_cons) _
  | pgStep => obtain ⟨_, hw⟩ | ⟨_, hw⟩ := hw <;> rw [hw] <;> exact h
  | _ => rw [hw]; exact h

end State.HandoffAccounted

theorem ClMove.keeps_account (h : s.HandoffAccounted) (hm : ClMove s b t) : t.HandoffAccounted := by
  cases hm with
  | nothing ht => exact h.before ht
  | host i rest hb _ _ _ he => exact (h.before hb).exec he
  | sequencer u hb _ he ht =>
    have hu : u.HandoffAccounted := (h.before hb).exec he
    exact ht ▸ hu
  | retry hb _ _ he => exact (h.before hb).exec he

/-- Settles O39: each move a step can be keeps the account, and a reset empties it. -/
theorem handoffStaysAccounted : Obligations.HandoffStaysAccounted := by
  intro s t h hstep
  obtain ⟨_, hm⟩ := step_cases hstep
  cases hm with
  | cl b hcl => exact hcl.keeps_account h
  | deStart b hb ht => exact ht ▸ (h.before hb).deStart
  | deTake b hb ht => exact ht ▸ (h.before hb).deTake
  | deRet b choice hb ht => exact ht ▸ (h.before hb).deRet choice
  | rst b contents _ _ ht => exact ht ▸ ⟨[], rfl, fun _ => Nat.le_refl 0⟩

/-! ### `ScanAddr` (R151, `20_memory.md` R65) -/

theorem frameWidth_pos (hc : configOk cfg = true) : 0 < cfg.frameWidth := by
  obtain ⟨_, _, _, _, hw, _⟩ := (configOk_iff cfg).mp hc
  exact hw

theorem scanAddr_lt_iff (hc : configOk cfg = true) (hscale : 1 ≤ cfg.addrScale) :
    scanAddr cfg p l < scanAddr cfg p' l' ↔ p * cfg.frameHeight + l < p' * cfg.frameHeight + l' := by
  simp only [scanAddr, offPx, Nat.add_lt_add_iff_left, Nat.mul_lt_mul_left hscale,
    Nat.mul_lt_mul_right (frameWidth_pos hc)]

/-- One address is one row: neither row index is below the other. -/
theorem row_eq_of_scanAddr_eq (hc : configOk cfg = true) (hscale : 1 ≤ cfg.addrScale)
    (h : scanAddr cfg p l = scanAddr cfg p' l') : p * cfg.frameHeight + l = p' * cfg.frameHeight + l' :=
  le_antisymm (not_lt.mp fun hlt => absurd h ((scanAddr_lt_iff hc hscale).mpr hlt).ne')
    (not_lt.mp fun hlt => absurd h ((scanAddr_lt_iff hc hscale).mpr hlt).ne)

/-- A row index has one page and one line in range: quotient and remainder by the height. -/
theorem page_line_of_row {n : Nat} (hl : l < n) (hl' : l' < n) (h : p * n + l = p' * n + l') : p = p' ∧ l = l' := by
  have hn : 0 < n := Nat.zero_lt_of_lt hl
  obtain ⟨hp, hm⟩ := (Nat.div_mod_unique hn).mpr ⟨(by rw [← h]; ring : l + n * p = p' * n + l'), hl⟩
  obtain ⟨hp', hm'⟩ := (Nat.div_mod_unique hn).mpr ⟨(by ring : l' + n * p' = p' * n + l'), hl'⟩
  exact ⟨hp.symm.trans hp', hm.symm.trans hm'⟩

theorem imageBase_le_scanAddr (cfg : Config) (p l : Nat) : cfg.imageBase ≤ scanAddr cfg p l := Nat.le_add_right _ _

/-- The last scanline ends where the store does. -/
theorem scanAddr_end_le (hp : p < cfg.pageNum) (hl : l < cfg.frameHeight) :
    scanAddr cfg p l + cfg.addrScale * cfg.frameWidth ≤ cfg.imageBase + storeSize cfg := by
  have row_lt : p * cfg.frameHeight + l + 1 ≤ cfg.pageNum * cfg.frameHeight := by
    calc p * cfg.frameHeight + l + 1 ≤ (p + 1) * cfg.frameHeight := by rw [Nat.succ_mul]; omega
      _ ≤ cfg.pageNum * cfg.frameHeight := Nat.mul_le_mul_right _ hp
  calc scanAddr cfg p l + cfg.addrScale * cfg.frameWidth
      = cfg.imageBase + cfg.addrScale * ((p * cfg.frameHeight + l + 1) * cfg.frameWidth) := by
        rw [scanAddr, offPx]; ring
    _ ≤ cfg.imageBase + storeSize cfg :=
        Nat.add_le_add_left (Nat.mul_le_mul_left _ (Nat.mul_le_mul_right _ row_lt)) _

theorem storeEnd_le (hc : configOk cfg = true) : cfg.imageBase + storeSize cfg ≤ 2 ^ cfg.addrW := by
  obtain ⟨_, _, _, _, _, _, hend, _⟩ := (configOk_iff cfg).mp hc
  exact hend

/-- R8: the store is within the addresses of `ADDR_W` bits, so the latch and the result carry the whole address. -/
theorem scanWord_eq (hc : configOk s.cfg = true) (hscale : 1 ≤ s.cfg.addrScale) (hp : s.page < s.cfg.pageNum)
    (hl : s.line < s.cfg.frameHeight) : s.scanWord = scanAddr s.cfg s.page s.line := by
  have line_pos : 0 < s.cfg.addrScale * s.cfg.frameWidth := Nat.mul_pos hscale (frameWidth_pos hc)
  have inside := (scanAddr_end_le hp hl).trans (storeEnd_le hc)
  exact Nat.mod_eq_of_lt (by omega)

/-- Settles O31: equal addresses are one row, and every scanline ends within the store. -/
theorem scanAddrIsMonotone : Obligations.ScanAddrIsMonotone := fun c p l _ _ hc hscale hp hl _ hl' =>
  ⟨fun h => page_line_of_row hl hl' (row_eq_of_scanAddr_eq hc hscale h), (scanAddr_lt_iff hc hscale).mpr,
    imageBase_le_scanAddr c p l, scanAddr_end_le hp hl⟩

/-! ### The four commands (R152 to R155) -/

/-- Settles O30: `SL_ADDR` latches the word of the address, which is all of it. -/
theorem scanAddressLatched : Obligations.ScanAddressLatched := by
  refine ⟨rfl, fun s hc hscale hp hl => ?_⟩
  rw [exec_slAddr, scanWord_eq hc hscale hp hl]
  rfl

/-- Settles O32: with `valid` no longer than its depth, it is full exactly at its depth. -/
theorem enqueueAppendsOrHolds : Obligations.EnqueueAppendsOrHolds :=
  ⟨rfl, fun _ hdepth =>
    ⟨fun hroom => exec_slEnq_room (validFull_eq_false.mpr (lt_of_le_of_ne hdepth hroom)),
      fun hfull => exec_slEnq_hold (decide_eq_true hfull.ge)⟩⟩

/-- Settles O33: the free queue is empty or has a front. -/
theorem drainTakesTheFront : Obligations.DrainTakesTheFront :=
  ⟨rfl, fun _ => ⟨exec_slDrain1_nil, fun _ _ => exec_slDrain1_cons⟩⟩

/-- A counter in range wraps as the remainder does. -/
theorem wrapInc_eq_mod {n k : Nat} (h : k < n) : wrapInc n k = (k + 1) % n := by
  unfold wrapInc
  split
  · rename_i hlast
    rw [hlast, Nat.mod_self]
  · rename_i hmore
    exact (Nat.mod_eq_of_lt (by omega)).symm

/-- Settles O34: the increment with wrap is the increment modulo the height. -/
theorem lineAdvancesWithWrap : Obligations.LineAdvancesWithWrap := by
  refine ⟨rfl, fun s hl => ?_⟩
  rw [exec_slLine, wrapInc_eq_mod hl]
  rfl

/-! ### The drain loop (R156) -/

/-- What the drain loop leaves: `free` empty, and the result of the try that found it so. -/
def State.drained (s : State) : State := { s with free := [] }.ret { ok := false }

/-- The drain loop within a sequence of commands, by induction over what `free` holds. -/
theorem execAll_drain (hh : s.held = false) (is : List Instr) :
    execAll (List.replicate (s.free.length + 1) .slDrain1 ++ is) s = execAll is s.drained := by
  generalize hf : s.free = q
  induction q generalizing s with
  | nil =>
    have last : exec .slDrain1 s = .next s.drained := by rw [exec_slDrain1_nil hf, State.drained, ← hf]
    exact execAll_cons last hh
  | cons a q ih =>
    exact (execAll_cons (exec_slDrain1_cons hf) hh).trans (ih (s := { s with free := q }.ret _) hh rfl)

/-- Settles O35: the drain loop with nothing after it. -/
theorem drainLoopEmptiesFree : Obligations.DrainLoopEmptiesFree := by
  intro s hh
  rw [execPseudo_slDrain, ← List.append_nil (List.replicate _ _), execAll_drain hh]
  rfl

/-! ### The sweep (R150, R160) -/

/-- What `SL_ENQ` leaves where there is room. -/
def State.enqueued (s : State) : State :=
  { s with valid := s.valid ++ [s.slAddr], validLog := s.validLog ++ [s.slAddr], held := false }.ret
    { ok := true, addr := s.slAddr }

theorem exec_slEnq_enqueued (hroom : s.valid.length < s.cfg.validDepth) : exec .slEnq s = .next s.enqueued :=
  exec_slEnq_room (validFull_eq_false.mpr hroom)

/-- What `SL_ADDR` leaves. -/
def State.latched (s : State) : State := { s with slAddr := s.scanWord }.ret { addr := s.scanWord }

/-- What a pipeline iteration with room on `valid` leaves. -/
def State.iterated (s : State) : State :=
  { s with
    slAddr := s.scanWord
    valid := s.valid ++ [s.scanWord]
    validLog := s.validLog ++ [s.scanWord]
    held := false
    free := []
    line := wrapInc s.cfg.frameHeight s.line }.ret {}

@[simp] theorem iterated_cfg (s : State) : s.iterated.cfg = s.cfg := rfl
@[simp] theorem iterated_page (s : State) : s.iterated.page = s.page := rfl
@[simp] theorem iterated_line (s : State) : s.iterated.line = wrapInc s.cfg.frameHeight s.line := rfl
@[simp] theorem iterated_held (s : State) : s.iterated.held = false := rfl
@[simp] theorem iterated_valid (s : State) : s.iterated.valid = s.valid ++ [s.scanWord] := rfl
@[simp] theorem iterated_validLog (s : State) : s.iterated.validLog = s.validLog ++ [s.scanWord] := rfl

theorem execPseudo_slIter_room (hh : s.held = false) (hroom : s.valid.length < s.cfg.validDepth) :
    execPseudo .slIter s = .next s.iterated := by
  calc execPseudo .slIter s
      = execAll (.slEnq :: (List.replicate (s.free.length + 1) Instr.slDrain1 ++ [Instr.slLine])) s.latched :=
        execAll_cons (t := s.latched) (exec_slAddr s) hh
    _ = execAll (List.replicate (s.free.length + 1) Instr.slDrain1 ++ [Instr.slLine]) s.latched.enqueued :=
        execAll_cons (exec_slEnq_enqueued (s := s.latched) hroom) rfl
    _ = execAll [.slLine] s.latched.enqueued.drained := execAll_drain (s := s.latched.enqueued) rfl _
    _ = .next s.iterated := execAll_cons (exec_slLine _) rfl

/-- Settles O36, by induction over the iterations: each enqueues the address of the line reached and goes one line on. -/
theorem sweepIsRowMajor : Obligations.SweepIsRowMajor := by
  intro k
  induction k with
  | zero => exact fun s _ _ _ hl _ _ => ⟨s, rfl, rfl, (Nat.mod_eq_of_lt hl).symm, (List.append_nil _).symm⟩
  | succ k ih =>
    intro s hc hscale hp hl hh hroom
    have line_after (j : Nat) : (s.iterated.line + j) % s.cfg.frameHeight = (s.line + (j + 1)) % s.cfg.frameHeight := by
      rw [iterated_line, wrapInc_eq_mod hl, Nat.mod_add_mod, Nat.add_assoc, Nat.add_comm 1]
    have room_next : s.iterated.valid.length + k ≤ s.iterated.cfg.validDepth := by
      simp only [iterated_valid, iterated_cfg, List.length_append, List.length_singleton]
      omega
    obtain ⟨t, hrun, hpage, hline, hlog⟩ :=
      ih s.iterated hc hscale hp (wrapInc_lt hl) (iterated_held s) room_next
    refine ⟨t, ?_, hpage, hline.trans (line_after k), ?_⟩
    · rw [repeatPseudo_succ (execPseudo_slIter_room hh (by omega)) (iterated_held s), hrun]
    · simp only [hlog, iterated_validLog, iterated_cfg, iterated_page, line_after, scanWord_eq hc hscale hp hl,
        List.range_succ_eq_map, List.map_cons, List.map_map, Function.comp_def, Nat.add_zero, Nat.mod_eq_of_lt hl,
        List.append_assoc, List.singleton_append]

/-! ### The engine's moves (R162 to R164) -/

/-- The state a scheduled move of the engine starts from: the move has left the schedule, and there is no result and no
strobe. -/
def State.idle (s : State) (rest : List Move) : State := { s.quiet with sched := rest }

theorem deStart_eq (s : State) :
    deStart s = if s.deStarted = false ∧ 1 ≤ s.valid.length then { s with deStarted := true } else s := by
  simp [deStart, Nat.one_le_iff_ne_zero]

/-- What `DE_TAKE` leaves where it takes the address `a` and leaves `q` on `valid`. -/
def State.taken (s : State) (rest : List Move) (a : Nat) (q : List Nat) : State :=
  { s.idle rest with valid := q, deHeld := s.deHeld ++ [a] }

theorem step_deTake_take {rest : List Move} {a : Nat} {q : List Nat} (hc : configOk s.cfg = true)
    (hs : s.sched = .deTake :: rest) (hstarted : s.deStarted = true) (hvalid : s.valid = a :: q) :
    step s = .next (s.taken rest a q) :=
  (step_move hc hs).trans (congrArg _ (deTake_take (s := s.idle rest) hstarted hvalid))

/-- Settles O38: each move is enabled or not, and starts with no result and no strobe. -/
theorem engineMoves : Obligations.EngineMoves := by
  intro s rest hc
  refine ⟨fun hs => ?start, fun hs => ⟨fun a q => step_deTake_take hc hs, fun h => ?takeNot⟩,
    fun choice hs => ⟨fun a hroom hheld => ?ret, fun h => ?retNot⟩⟩ <;> rw [step_move hc hs]
  case start => exact congrArg _ (deStart_eq (s.idle rest))
  case takeNot => exact congrArg _ (deTake_not (s := s.idle rest) h)
  case ret => exact congrArg _ (deRet_return (s := s.idle rest) hheld (freeFull_eq_false.mpr hroom))
  case retNot => exact congrArg _ (deRet_not (s := s.idle rest) (h.imp_right decide_eq_true))

/-! ### What lifts a held `SL_ENQ` (R153, R163, R165) -/

/-- From `s` to `t` the `SL_ENQ` that CL is inside of has completed: the latched address is at the back of `valid` and of its
history, and the sequencer, where it runs, is at phase 6. -/
def State.EnqueueCompletes (s t : State) : Prop :=
  t.held = false ∧ t.valid = s.valid ++ [s.slAddr] ∧ t.deHeld = s.deHeld ∧ t.validLog = s.validLog ++ [s.slAddr] ∧
    t.result = { ok := true, addr := s.slAddr } ∧ (s.run = true → t.phase = 6)

/-- CL's own step inside a held `SL_ENQ` that has room now, in both modes. -/
theorem clStep_held (hh : s.held = true) (hphase : s.run = true → s.phase = 5)
    (hroom : s.valid.length < s.cfg.validDepth) : ∃ t, clStep s = .next t ∧ s.EnqueueCompletes t := by
  have he := exec_slEnq_enqueued hroom
  cases hr : s.run with
  | true =>
    refine ⟨s.enqueued.advance 5, ?_, rfl, rfl, rfl, rfl, rfl, fun _ => rfl⟩
    rw [clStep_run hr, hphase hr, loopInstr_5, he]
    rfl
  | false => exact ⟨s.enqueued, by simp [clStep, hr, hh, he], rfl, rfl, rfl, rfl, rfl, fun h => nomatch hr.symm.trans h⟩

theorem step_cl_held {inp : Inputs} {rest : List Move} (hc : configOk s.cfg = true) (hs : s.sched = .cl inp :: rest)
    (hh : s.held = true) (hphase : s.run = true → s.phase = 5) (hroom : s.valid.length < s.cfg.validDepth) :
    ∃ t, step s = .next t ∧ s.EnqueueCompletes t := by
  rw [step_move hc hs]
  exact clStep_held (s := s.atPort inp rest) hh hphase hroom

/-- Settles O40: the engine takes the front of `valid`, and CL's next own step finds room. -/
theorem takeLiftsHeldEnqueue : Obligations.TakeLiftsHeldEnqueue := by
  intro s inp rest a q h hh hstarted hvalid hs
  have hroom : q.length < s.cfg.validDepth := by
    have hdepth := h.validDepth
    rwa [hvalid] at hdepth
  have take : step s = .next (s.taken (.cl inp :: rest) a q) := step_deTake_take h.config hs hstarted hvalid
  obtain ⟨t, complete, ht⟩ := step_cl_held (s := s.taken (.cl inp :: rest) a q) h.config rfl hh
    (fun hr => h.heldPhase hr hh) hroom
  rw [run_succ 1 take, run_succ 0 complete, run_zero]
  exact ⟨t, rfl, ht⟩

/-- What CL can do to the valid queue and to its hold: nothing is removed, and only an enqueue that finds room lifts the
hold. -/
def State.HoldStep (s t : State) : Prop :=
  (t.valid = s.valid ∧ (s.held = true → t.held = true)) ∨
    (s.valid.length < s.cfg.validDepth ∧ t.valid = s.valid ++ [s.slAddr])

theorem exec_holdStep (he : exec i s = .next t) : s.HoldStep t := by
  by_cases hi : i = .slEnq
  · subst hi
    cases hf : s.validFull with
    | true => cases (exec_slEnq_hold hf).symm.trans he; exact .inl ⟨rfl, fun _ => rfl⟩
    | false => cases (exec_slEnq_room hf).symm.trans he; exact .inr ⟨validFull_eq_false.mp hf, rfl⟩
  · obtain ⟨_, _, _, _, _, _, _, queue, _⟩ := onlyTheTablesWritersWrite i s t he
    obtain ⟨hvalid, _, hheld⟩ := queue.resolve_left hi
    exact .inl ⟨hvalid, hheld.trans⟩

theorem State.Before.holdStep (hb : s.Before b) : s.HoldStep b := by
  rw [hb.1]
  exact .inl ⟨rfl, id⟩

theorem State.HoldStep.of_before (hb : s.Before b) (h : b.HoldStep t) : s.HoldStep t := by
  rw [hb.1] at h
  exact h

theorem ClMove.holdStep (h : ClMove s b t) : s.HoldStep t := by
  cases h with
  | nothing ht => exact ht.holdStep
  | host i rest hb _ _ _ he => exact (exec_holdStep he).of_before hb
  | sequencer u hb _ he ht => exact ht ▸ (exec_holdStep he).of_before hb
  | retry hb _ _ he => exact (exec_holdStep he).of_before hb

theorem deStart_holdStep (s : State) : s.HoldStep (deStart s) := by
  obtain e | ⟨_, _, e⟩ := deStart_cases s <;> rw [e] <;> exact .inl ⟨rfl, id⟩

theorem deRet_holdStep (choice : Nat) (s : State) : s.HoldStep (deRet choice s) := by
  obtain e | ⟨_, _, _, _, e⟩ := deRet_cases choice s <;> rw [e] <;> exact .inl ⟨rfl, id⟩

theorem deTake_held (s : State) : (deTake s).held = s.held := by
  obtain e | ⟨_, _, _, _, e⟩ := deTake_cases s <;> rw [e]

theorem step_hold_cases (hn : s.noReset = true) (h : step s = .next t) :
    s.HoldStep t ∨
      (t.held = s.held ∧ (t.valid = s.valid ∨ s.deStarted = true) ∧ ∃ rest, s.sched = .deTake :: rest) := by
  obtain ⟨_, hm⟩ := step_cases h
  cases hm with
  | cl b hcl => exact .inl hcl.holdStep
  | deStart b hb ht => exact .inl (ht ▸ (deStart_holdStep b).of_before hb)
  | deRet b choice hb ht => exact .inl (ht ▸ (deRet_holdStep choice b).of_before hb)
  | rst b contents _ hr => exact absurd (hn.symm.trans hr) (by decide)
  | deTake b hb ht hs =>
    refine .inr ⟨by rw [ht, deTake_held, hb.1], ?_, hs⟩
    obtain e | ⟨_, _, hstarted, _⟩ := deTake_cases b
    · exact .inl (by rw [ht, e, hb.1])
    · exact .inr (by rwa [hb.1] at hstarted)

/-- Settles O41: CL keeps the hold or completes the enqueue, where there was room, and only `DE_TAKE` removes an address. -/
theorem holdIsLiftedOnlyByTake : Obligations.HoldIsLiftedOnlyByTake := by
  intro s t hn h
  obtain (⟨hvalid, hkeep⟩ | ⟨hroom, hvalid⟩) | ⟨hheld, hvalid, htake⟩ := step_hold_cases hn h
  · exact ⟨fun hh hlift => absurd ((hkeep hh).symm.trans hlift) (by decide), fun hlt => absurd hlt (by simp [hvalid])⟩
  · exact ⟨fun _ _ => ⟨hroom, hvalid⟩, fun hlt => absurd hlt (by simp [hvalid])⟩
  · refine ⟨fun hh hlift => absurd ((hheld.trans hh).symm.trans hlift) (by decide), fun hlt => ⟨?_, htake⟩⟩
    exact hvalid.resolve_left fun e => absurd hlt (by simp [e])

end Sys2Proof.Machine
end

section
/-! PROOFS. The family of `44_control_loop.md`: the loop's ROM and the sequencer's step (O8, O7), the SYS commands (O11), the
page steps (O42, O43), the serial egress (O44, O45), and one iteration of the loop (O46, O47). -/

namespace Sys2Proof.Machine

open Sys2Proof

variable {s t u b : State} {i : Instr} {inp : Inputs} {p : BitVec 3}

/-! ### The loop's ROM (R185) -/

/-- Settles O8: each word of the ROM decodes to its command. -/
theorem loopRomIsTheLoop : Obligations.LoopRomIsTheLoop := ⟨rfl, by decide⟩

/-! ### The SYS commands (R183, R184) -/

theorem accepts_iff_of_not_push (hi : i.isPush = false) : s.accepts i = true ↔ s.run = false := by
  simp [accepts_iff, hi]

/-- Settles O11: neither command is a push. -/
theorem sysCommands : Obligations.SysCommands :=
  ⟨rfl, rfl, fun s => ⟨exec_sysNop s, exec_sysRun s, accepts_iff_of_not_push rfl, accepts_iff_of_not_push rfl⟩⟩

/-! ### The sequencer's step (R186) -/

theorem step_cl {rest : List Move} (hc : configOk s.cfg = true) (hs : s.sched = .cl inp :: rest) :
    step s = clStep (s.atPort inp rest) := step_move hc hs

/-- `SL_ENQ` leaves CL held exactly where there is no room. -/
theorem exec_slEnq_held (he : exec .slEnq s = .next t) : t.held = s.validFull := by
  cases hf : s.validFull with
  | true => cases (exec_slEnq_hold hf).symm.trans he; rfl
  | false => cases (exec_slEnq_room hf).symm.trans he; rfl

/-- A try-dequeue succeeds exactly where `free` holds something. -/
theorem exec_slDrain1_lastOk (he : exec .slDrain1 s = .next t) : t.lastOk = !s.free.isEmpty := by
  cases hf : s.free with
  | nil => cases (exec_slDrain1_nil hf).symm.trans he; rfl
  | cons a q => cases (exec_slDrain1_cons hf).symm.trans he; rfl

/-- The phase after the loop's command, from the state before it. -/
theorem nextPhase_of_exec (hdepth : s.valid.length ≤ s.cfg.validDepth) (he : exec (loopInstr p) s = .next t) :
    nextPhase p t =
      if p = 5 then if s.valid.length = s.cfg.validDepth then 5 else 6
      else if p = 6 then if s.free = [] then 7 else 6
      else p + 1 := by
  by_cases h5 : p = 5
  · subst h5
    simp [nextPhase, exec_slEnq_held (loopInstr_5 ▸ he), State.validFull, hdepth.ge_iff_eq]
  by_cases h6 : p = 6
  · subst h6
    simp [nextPhase, exec_slDrain1_lastOk (loopInstr_6 ▸ he)]
  · simp only [nextPhase, h5, h6, if_false]

theorem clStep_idle (hr : s.run = false) (hh : s.held = false) : clStep s = .next s := by simp [clStep, hr, hh]

/-- Settles O7: with `run` = 1 the step is the phase's command with the phase moved on; else CL, not held, is idle. -/
theorem stepRunsSequencer : Obligations.StepRunsSequencer := by
  intro s inp rest hc hs hdepth s'
  have cl : step s = clStep s' := step_cl hc hs
  refine ⟨fun hr => ?_, fun hr hh => ?_⟩
  · rw [cl, clStep_run (s := s') hr]
    cases he : exec (loopInstr s.phase) s' with
    | next t =>
      exact congrArg (fun q => (Host.Outcome.next { t with phase := q } : Answer)) (nextPhase_of_exec (s := s') hdepth he)
    | fault r => rfl
    | refused r => rfl
  · exact cl.trans (clStep_idle (s := s') hr hh)

/-! ### The page steps (R181, R190) -/

/-- What a page step leaves that turns to the page `p`. -/
def State.turnedTo (s : State) (p : Nat) : State := { s with page := p }.display (digitOf p)

theorem exec_pgStep_turn (hp : s.page < s.cfg.pageNum) (he : s.edge = true) :
    exec .pgStep s = .next (s.turnedTo ((s.page + 1) % s.cfg.pageNum)) := by
  rw [exec_pgStep_edge he, wrapInc_eq_mod hp]
  rfl

/-- Settles O42: the increment with wrap is the increment modulo the number of pages. -/
theorem pageStep : Obligations.PageStep :=
  ⟨rfl, fun _ hp => ⟨exec_pgStep_turn hp, exec_pgStep_none⟩⟩

/-- Page steps on one edge, by induction over their number: each turns one page on. -/
theorem repeatExec_pgStep (k : Nat) (hp : s.page < s.cfg.pageNum) (he : s.edge = true) (hh : s.held = false) :
    repeatExec .pgStep (k + 1) s = .next (s.turnedTo ((s.page + (k + 1)) % s.cfg.pageNum)) := by
  induction k generalizing s with
  | zero => exact execAll_cons (exec_pgStep_turn hp he) hh
  | succ k ih =>
    have page_next : (s.page + 1) % s.cfg.pageNum < s.cfg.pageNum := Nat.mod_lt _ (Nat.zero_lt_of_lt hp)
    have page_after : ((s.page + 1) % s.cfg.pageNum + (k + 1)) % s.cfg.pageNum = (s.page + (k + 1 + 1)) % s.cfg.pageNum := by
      rw [Nat.mod_add_mod, Nat.add_assoc, Nat.add_comm 1]
    calc repeatExec .pgStep (k + 1 + 1) s
        = repeatExec .pgStep (k + 1) (s.turnedTo ((s.page + 1) % s.cfg.pageNum)) :=
          execAll_cons (exec_pgStep_turn hp he) hh
      _ = .next ((s.turnedTo ((s.page + 1) % s.cfg.pageNum)).turnedTo
            (((s.page + 1) % s.cfg.pageNum + (k + 1)) % s.cfg.pageNum)) :=
          ih (s := s.turnedTo ((s.page + 1) % s.cfg.pageNum)) page_next he hh
      _ = .next (s.turnedTo ((s.page + (k + 1 + 1)) % s.cfg.pageNum)) := by rw [page_after]; rfl

/-- Settles O43: a page in range is reached again after as many page steps as there are pages. -/
theorem pageAfterEdges : Obligations.PageAfterEdges := by
  intro k s hp he hh
  refine ⟨⟨_, repeatExec_pgStep k hp he hh, rfl, rfl, rfl⟩, ?_⟩
  obtain ⟨n, hn⟩ : ∃ n, s.cfg.pageNum = n + 1 := Nat.exists_eq_succ_of_ne_zero (by omega)
  have round := repeatExec_pgStep n hp he hh
  rw [← hn, Nat.add_mod_right, Nat.mod_eq_of_lt hp] at round
  exact ⟨_, round, rfl⟩

/-! ### The serial egress (R182, R209, R231, R232) -/

/-- Settles O44: the transfer sends where the port is ready and the buffer holds a byte, and is idle elsewhere. -/
theorem egressSendsOneByte : Obligations.EgressSendsOneByte := by
  refine ⟨rfl, fun s hhead htail => ?_⟩
  have hr : s.ring.inRange s.cfg.rbSize = true := Ring.inRange_iff.mpr ⟨hhead, htail⟩
  refine ⟨fun hready hsome => ?_, fun hidle => ?_⟩
  · exact exec_egXfer_send hr hready (Bool.eq_false_iff.mpr (Ring.isEmpty_iff.not.mpr hsome))
  · exact exec_egXfer_idle hr (hidle.imp_right Ring.isEmpty_iff.mpr)

/-- No other command strobes the serial port. -/
theorem exec_tx_none (hi : i ≠ .egXfer) (he : exec i s = .next t) : t.out.tx = none := by
  cases i with
  | egXfer => exact absurd rfl hi
  | rbPush b => obtain ⟨_, rfl⟩ := exec_rbPush_next.mp he; rfl
  | rbPushB bytes => obtain ⟨_, rfl⟩ := exec_rbPushB_next.mp he; rfl
  | rbPushBS bytes => obtain ⟨_, rfl⟩ := exec_rbPushBS_next.mp he; rfl
  | rbPop => obtain ⟨_, ⟨_, rfl⟩ | ⟨_, rfl⟩⟩ := exec_rbPop_next he <;> rfl
  | slEnq =>
    cases hf : s.validFull with
    | true => cases (exec_slEnq_hold hf).symm.trans he; rfl
    | false => cases (exec_slEnq_room hf).symm.trans he; rfl
  | slDrain1 =>
    cases hf : s.free with
    | nil => cases (exec_slDrain1_nil hf).symm.trans he; rfl
    | cons a q => cases (exec_slDrain1_cons hf).symm.trans he; rfl
  | pgStep =>
    cases hedge : s.edge with
    | true => cases (exec_pgStep_edge hedge).symm.trans he; rfl
    | false => cases (exec_pgStep_none hedge).symm.trans he; rfl
  | sysNop | sysRun | dbSample | dbEdge | segEnc _ | segShow _ | segPage | slAddr | slLine => cases he; rfl

/-- From `s` to `t` the history gains what is strobed, and what is strobed is the oldest live byte, which leaves the buffer,
on a port that is ready. -/
def State.StrobeStep (s t : State) : Prop :=
  t.txLog = s.txLog ++ t.out.tx.toList ∧ ∀ b, t.out.tx = some b → t.inp.txReady = true ∧ s.live = b :: t.live

/-- Nothing strobed and nothing added to the history. -/
theorem State.StrobeStep.of_none (hlog : t.txLog = s.txLog) (hout : t.out.tx = none) : s.StrobeStep t := by
  simp [State.StrobeStep, hlog, hout]

theorem State.Before.strobeStep (hb : s.Before b) : s.StrobeStep b := by
  obtain ⟨e, hout, _⟩ := hb
  exact .of_none (by rw [e]) hout

theorem State.StrobeStep.of_before (hb : s.Before b) (h : b.StrobeStep t) : s.StrobeStep t := by
  rw [hb.1] at h
  exact h

theorem exec_strobeStep (hr : s.ring.inRange s.cfg.rbSize = true) (he : exec i s = .next t) : s.StrobeStep t := by
  by_cases hi : i = .egXfer
  · subst hi
    obtain ⟨_, ⟨_, rfl⟩ | ⟨hready, hsome, rfl⟩⟩ := exec_egXfer_next he
    · exact .of_none rfl rfl
    · refine ⟨rfl, fun b hb => ⟨hready, ?_⟩⟩
      cases hb
      exact Ring.live_pop hr hsome
  · obtain ⟨_, _, _, _, _, _, _, _, _, _, _, hlog, _⟩ := onlyTheTablesWritersWrite i s t he
    exact .of_none (hlog.resolve_left hi) (exec_tx_none hi he)

theorem ClMove.strobeStep (h : s.Inv) (hm : ClMove s b t) : s.StrobeStep t := by
  cases hm with
  | nothing ht => exact ht.strobeStep
  | host i rest hb _ _ _ he => exact (exec_strobeStep (h.before hb).ringRange he).of_before hb
  | sequencer u hb _ he ht => exact ht ▸ (exec_strobeStep (h.before hb).ringRange he).of_before hb
  | retry hb _ _ he => exact (exec_strobeStep (h.before hb).ringRange he).of_before hb

theorem deStart_strobeStep (h : s.StrobeStep b) : s.StrobeStep (deStart b) := by
  obtain e | ⟨_, _, e⟩ := deStart_cases b <;> rw [e] <;> exact h

theorem deTake_strobeStep (h : s.StrobeStep b) : s.StrobeStep (deTake b) := by
  obtain e | ⟨_, _, _, _, e⟩ := deTake_cases b <;> rw [e] <;> exact h

theorem deRet_strobeStep (choice : Nat) (h : s.StrobeStep b) : s.StrobeStep (deRet choice b) := by
  obtain e | ⟨_, _, _, _, e⟩ := deRet_cases choice b <;> rw [e] <;> exact h

/-- Settles O45: of all that a step but a reset can do only `EG_XFER` strobes, and then the byte it pops. -/
theorem serialWritesOnlyWhenReady : Obligations.SerialWritesOnlyWhenReady := by
  intro s t h hn hstep
  obtain ⟨_, hm⟩ := step_cases hstep
  cases hm with
  | cl b hcl => exact hcl.strobeStep h
  | deStart b hb ht => exact ht ▸ deStart_strobeStep hb.strobeStep
  | deTake b hb ht => exact ht ▸ deTake_strobeStep hb.strobeStep
  | deRet b choice hb ht => exact ht ▸ deRet_strobeStep choice hb.strobeStep
  | rst b contents _ hr => exact absurd (hn.symm.trans hr) (by decide)

/-! ### The commands of an iteration before the pipeline's (R188, phases 0 to 3 of R185) -/

/-- The commands of an iteration before those of the pipeline. -/
def frontCommands : List Instr := [.dbSample, .dbEdge, .pgStep, .egXfer]

/-- From `s` to `t` the pipeline, what it reads but the page, and what drives the sequencer are as they were. -/
structure State.KeepsPipeline (s t : State) : Prop where
  cfg : t.cfg = s.cfg
  inp : t.inp = s.inp
  run : t.run = s.run
  held : t.held = s.held
  line : t.line = s.line
  valid : t.valid = s.valid
  validLog : t.validLog = s.validLog
  free : t.free = s.free

theorem State.KeepsPipeline.trans (h : s.KeepsPipeline t) (h' : t.KeepsPipeline u) : s.KeepsPipeline u where
  cfg := h'.cfg.trans h.cfg
  inp := h'.inp.trans h.inp
  run := h'.run.trans h.run
  held := h'.held.trans h.held
  line := h'.line.trans h.line
  valid := h'.valid.trans h.valid
  validLog := h'.validLog.trans h.validLog
  free := h'.free.trans h.free

theorem exec_keepsPipeline (hi : i ∈ frontCommands) (he : exec i s = .next t) : s.KeepsPipeline t := by
  have hw := exec_onlyTableWrites he
  cases i with
  | dbSample | dbEdge | egXfer => rw [hw]; constructor <;> rfl
  | pgStep => obtain ⟨_, hw⟩ | ⟨_, hw⟩ := hw <;> rw [hw] <;> constructor <;> rfl
  | _ => simp [frontCommands] at hi

/-! ### A pass of the sequencer (R186, R188) -/

/-- `u` with the sequencer at phase `p` and `n` moves of CL to come, all with the inputs `inp`. -/
def State.underway (u : State) (inp : Inputs) (p : BitVec 3) (n : Nat) : State :=
  { u with sched := List.replicate n (.cl inp) ++ u.sched, phase := p }

/-- What those `n` moves lead to. -/
def State.runPhases (u : State) (inp : Inputs) (p : BitVec 3) (n : Nat) : Answer :=
  Host.Core.run Sys2Proof.core n (u.underway inp p n)

/-- The sequencer runs in `u` and is not held, and the inputs `inp` of its next step are at the ports already. -/
structure State.Sequenced (u : State) (inp : Inputs) : Prop where
  config : configOk u.cfg = true
  running : u.run = true
  notHeld : u.held = false
  latched : (u.latch inp).inp = u.inp

theorem State.Sequenced.keeps (h : s.Sequenced inp) (hk : s.KeepsPipeline t) : t.Sequenced inp where
  config := hk.cfg ▸ h.config
  running := hk.run.trans h.running
  notHeld := hk.held.trans h.notHeld
  latched := by rw [hk.inp, ← h.latched, State.latch, hk.cfg]; rfl

theorem underway_atPort (hu : u.Sequenced inp) (n : Nat) (rest : List Move) :
    (u.underway inp p n).atPort inp rest = { u with sched := rest, phase := p, out := {} } :=
  congrArg (fun j => { u with sched := rest, phase := p, out := {}, inp := j }) hu.latched

/-- One step of a pass is the phase's command, whatever else is scheduled and whatever the last outputs are. -/
theorem step_underway (hu : u.Sequenced inp) (n : Nat) :
    step (u.underway inp p (n + 1)) =
      mapNext (fun t => t.underway inp (nextPhase p t) n) (exec (loopInstr p) u) := by
  rw [step_cl (s := u.underway inp p (n + 1)) hu.config rfl, underway_atPort hu, clStep_run,
    exec_elsewhere (loopInstr_ne_sysRun p)]
  · cases he : exec (loopInstr p) u with
    | next t =>
      obtain ⟨_, _, _, hsched, _⟩ := exec_environment he
      rw [← hsched]
      rfl
    | fault r => rfl
    | refused r => rfl
  · exact hu.running

theorem runPhases_succ (hu : u.Sequenced inp) (n : Nat) (he : exec (loopInstr p) u = .next t) :
    u.runPhases inp p (n + 1) = t.runPhases inp (nextPhase p t) n :=
  run_succ n (by rw [step_underway hu, he]; rfl)

theorem runPhases_fault {r : Fault} (hu : u.Sequenced inp) (n : Nat) (he : exec (loopInstr p) u = .fault r) :
    u.runPhases inp p (n + 1) = .fault r :=
  run_fault n (by rw [step_underway hu, he]; rfl)

theorem execAll_cons_fault {is : List Instr} {r : Fault} (he : exec i s = .fault r) : execAll (i :: is) s = .fault r := by
  simp [execAll, he]

theorem nextPhase_front (hp : p < 4) (t : State) : nextPhase p t = p + 1 := by
  obtain ⟨h5, h6⟩ : p ≠ 5 ∧ p ≠ 6 := by revert p; decide
  simp only [nextPhase, h5, h6, if_false]

/-- The sequencer back at phase 0. -/
def State.rewound (t : State) : State := { t with phase := 0 }

/-- A front command of a pass: where the rest of the pass does what the rest of the commands do, so does the pass from here;
a fault ends both. -/
theorem runPhases_front {n : Nat} {is : List Instr} (hu : u.Sequenced inp) (hp : p < 4)
    (hi : loopInstr p = i) (hfront : i ∈ frontCommands)
    (rest : ∀ t, u.KeepsPipeline t → t.runPhases inp (p + 1) n = mapNext State.rewound (execAll is t)) :
    u.runPhases inp p (n + 1) = mapNext State.rewound (execAll (i :: is) u) := by
  subst hi
  obtain ⟨t, he⟩ | ⟨_, he⟩ := exec_total (loopInstr p) u
  · have hk := exec_keepsPipeline hfront he
    rw [runPhases_succ hu n he, nextPhase_front hp, rest t hk, execAll_cons he (hk.held.trans hu.notHeld)]
  · rw [runPhases_fault hu n he, execAll_cons_fault he]
    rfl

/-- What a try-dequeue leaves that takes the address `a` and leaves `q` on `free`. -/
def State.dequeued (s : State) (a : Nat) (q : List Nat) : State := { s with free := q }.ret { ok := true, addr := a }

/-- The drain phase of a pass, by induction over what `free` holds. -/
theorem runPhases_drain (hu : u.Sequenced inp) (n : Nat) :
    u.runPhases inp 6 (n + u.free.length + 1) = u.drained.runPhases inp 7 n := by
  generalize hf : u.free = q
  induction q generalizing u with
  | nil =>
    have last : exec (loopInstr 6) u = .next u.drained := by
      rw [loopInstr_6, exec_slDrain1_nil hf, State.drained, ← hf]
    exact runPhases_succ hu n last
  | cons a q ih =>
    have front : exec (loopInstr 6) u = .next (u.dequeued a q) := by rw [loopInstr_6, exec_slDrain1_cons hf]; rfl
    calc u.runPhases inp 6 (n + q.length + 1 + 1)
        = (u.dequeued a q).runPhases inp 6 (n + q.length + 1) := runPhases_succ hu _ front
      _ = u.drained.runPhases inp 7 n := ih (u := u.dequeued a q) { hu with } rfl

/-- The pipeline phases of a pass do what `SL_ITER` does. -/
theorem runPhases_pipeline (hu : u.Sequenced inp) (hroom : u.valid.length < u.cfg.validDepth) :
    u.runPhases inp 4 (1 + u.free.length + 3) = mapNext State.rewound (execPseudo .slIter u) := by
  have latched : u.latched.Sequenced inp := { hu with }
  have enqueued : u.latched.enqueued.Sequenced inp := { hu with notHeld := rfl }
  have drained : u.latched.enqueued.drained.Sequenced inp := { enqueued with }
  calc u.runPhases inp 4 (1 + u.free.length + 3)
      = u.latched.runPhases inp 5 (1 + u.free.length + 2) := runPhases_succ hu _ (loopInstr_4 ▸ exec_slAddr u)
    _ = u.latched.enqueued.runPhases inp 6 (1 + u.free.length + 1) :=
        runPhases_succ latched _ (loopInstr_5 ▸ exec_slEnq_enqueued hroom)
    _ = u.latched.enqueued.drained.runPhases inp 7 1 := runPhases_drain enqueued 1
    _ = u.iterated.runPhases inp 0 0 := runPhases_succ drained 0 (loopInstr_7 ▸ exec_slLine _)
    _ = mapNext State.rewound (execPseudo .slIter u) := by rw [execPseudo_slIter_room hu.notHeld hroom]; rfl

/-- A pass from phase 0 does what `ITER` does. -/
theorem runPhases_pass (hu : u.Sequenced inp) (hroom : u.valid.length < u.cfg.validDepth) :
    u.runPhases inp 0 (1 + u.free.length + 7) = mapNext State.rewound (execPseudo .iter u) := by
  refine runPhases_front hu (by decide) loopInstr_0 (by decide) fun t₁ k₁ => ?_
  refine runPhases_front (hu.keeps k₁) (by decide) loopInstr_1 (by decide) fun t₂ k => ?_
  have k₂ := k₁.trans k
  refine runPhases_front (hu.keeps k₂) (by decide) loopInstr_2 (by decide) fun t₃ k => ?_
  have k₃ := k₂.trans k
  refine runPhases_front (hu.keeps k₃) (by decide) loopInstr_3 (by decide) fun t₄ k => ?_
  have k₄ := k₃.trans k
  rw [← k₄.free]
  exact runPhases_pipeline (hu.keeps k₄) (by rw [k₄.valid, k₄.cfg]; exact hroom)

/-- Settles O46: the first step latches the inputs of the pass, and then each phase does what its command does. -/
theorem sequencerPassIsIter : Obligations.SequencerPassIsIter := by
  intro s inp rest hc hr hp hh hroom hs
  rw [show 8 + s.free.length = 1 + s.free.length + 7 by omega] at hs ⊢
  let u := ({ s with sched := rest } : State).latch inp
  have hu : u.Sequenced inp := ⟨hc, hr, hh, rfl⟩
  have first : step s = step (u.underway inp 0 (1 + s.free.length + 7)) := by
    rw [step_cl hc hs, step_cl (s := u.underway inp 0 _) hc rfl, ← hp]
    rfl
  exact (run_first _ first).trans (runPhases_pass hu hroom)

/-! ### One iteration (R188, R189) -/

theorem exec_page (he : exec i s = .next t) (hi : i ≠ .pgStep) : t.page = s.page := by
  obtain ⟨_, _, _, _, hpage, _⟩ := onlyTheTablesWritersWrite i s t he
  exact hpage.resolve_left fun h => hi h.1

theorem exec_edge (he : exec i s = .next t) (hi : i ≠ .dbEdge) : t.edge = s.edge := by
  obtain ⟨_, _, _, hedge, _⟩ := onlyTheTablesWritersWrite i s t he
  exact (hedge.resolve_left hi).2

theorem exec_pgStep_page (hp : s.page < s.cfg.pageNum) (he : exec .pgStep s = .next t) :
    t.page = if s.edge = true then (s.page + 1) % s.cfg.pageNum else s.page := by
  split
  · rename_i hedge
    cases (exec_pgStep_turn hp hedge).symm.trans he; rfl
  · rename_i hedge
    cases (exec_pgStep_none (Bool.eq_false_iff.mpr hedge)).symm.trans he; rfl

/-- A front command that leaves the ring buffer as it is. -/
theorem exec_front (hfront : i ∈ frontCommands) (hring : i.usesRing = false)
    (hr : s.ring.inRange s.cfg.rbSize = true) :
    ∃ t, exec i s = .next t ∧ s.KeepsPipeline t ∧ t.ring.inRange t.cfg.rbSize = true := by
  obtain ⟨t, he⟩ := exec_answers i hr
  have hk := exec_keepsPipeline hfront he
  exact ⟨t, he, hk, by rw [exec_ring he hring, hk.cfg]; exact hr⟩

/-- An iteration reaches its pipeline commands with the page of its edge and with the pipeline as it was. -/
theorem execPseudo_iter_front (hr : s.ring.inRange s.cfg.rbSize = true) (hp : s.page < s.cfg.pageNum)
    (hh : s.held = false) :
    ∃ t, execPseudo .iter s = execPseudo .slIter t ∧ s.KeepsPipeline t ∧
      t.page = if t.edge = true then (s.page + 1) % s.cfg.pageNum else s.page := by
  obtain ⟨t₁, e₁, k₁, r₁⟩ := exec_front (i := .dbSample) (by decide) rfl hr
  obtain ⟨t₂, e₂, k, r₂⟩ := exec_front (i := .dbEdge) (by decide) rfl r₁
  have k₂ := k₁.trans k
  obtain ⟨t₃, e₃, k, r₃⟩ := exec_front (i := .pgStep) (by decide) rfl r₂
  have k₃ := k₂.trans k
  obtain ⟨t₄, e₄⟩ := exec_answers .egXfer r₃
  have k₄ := k₃.trans (exec_keepsPipeline (by decide) e₄)
  have page₂ : t₂.page = s.page := (exec_page e₂ nofun).trans (exec_page e₁ nofun)
  have edge₄ : t₄.edge = t₂.edge := (exec_edge e₄ nofun).trans (exec_edge e₃ nofun)
  refine ⟨t₄, ?_, k₄, ?_⟩
  · rw [execPseudo_iter, execPseudo_slIter, k₄.free]
    exact (execAll_cons e₁ (k₁.held.trans hh)).trans <| (execAll_cons e₂ (k₂.held.trans hh)).trans <|
      (execAll_cons e₃ (k₃.held.trans hh)).trans (execAll_cons e₄ (k₄.held.trans hh))
  · rw [exec_page e₄ nofun, exec_pgStep_page (by rw [page₂, k₂.cfg]; exact hp) e₃, edge₄, page₂, k₂.cfg]

/-- Settles O47: the pipeline iteration enqueues the address of the page that the front commands leave. -/
theorem iterationEnqueuesTheNewPage : Obligations.IterationEnqueuesTheNewPage := by
  intro s hc hscale hp hl hhead htail hh hroom
  obtain ⟨t, hiter, hk, hpage⟩ := execPseudo_iter_front (Ring.inRange_iff.mpr ⟨hhead, htail⟩) hp hh
  have page_lt : t.page < s.cfg.pageNum := by
    rw [hpage]
    split
    · exact Nat.mod_lt _ (Nat.zero_lt_of_lt hp)
    · exact hp
  have word : t.scanWord = scanAddr s.cfg t.page s.line := by
    rw [scanWord_eq (hk.cfg.symm ▸ hc) (hk.cfg.symm ▸ hscale) (hk.cfg.symm ▸ page_lt)
      (by rw [hk.line, hk.cfg]; exact hl), hk.cfg, hk.line]
  refine ⟨t.iterated, ?_, hpage, ?_, ?_, rfl⟩
  · rw [hiter, execPseudo_slIter_room (hk.held.trans hh) (by rw [hk.valid, hk.cfg]; exact hroom)]
  · rw [iterated_validLog, hk.validLog, word]
    rfl
  · rw [iterated_line, hk.cfg, hk.line, wrapInc_eq_mod hl]

end Sys2Proof.Machine
end

section
/-! PROOFS. The family of `70_reset_and_hazards.md`: the boot sequence (O56), the step with `rst` = 1 (O52), and that the
reset state meets the invariants (O53). -/

namespace Sys2Proof.Machine

open Sys2Proof

variable {s : State} {c : Config} {bytes : List Byte}

/-! ### The reset state (R220, R221) -/

/-- A step with `rst` = 1 resets whatever the state is; the move leaves the schedule. -/
theorem step_rst {rest : List Move} (hc : configOk s.cfg = true) (hs : s.sched = .rst bytes :: rest) :
    step s = .next (({ s.quiet with sched := rest } : State).applyReset bytes) :=
  step_move hc hs

/-- Settles O52: the reset move leaves the reset state, whatever the state was. -/
theorem resetStep : Obligations.ResetStep := by
  intro s contents rest hc hs
  refine ⟨_, step_rst hc hs, ?_⟩
  and_intros <;> rfl

theorem resetWith_ringRange (hc : configOk c = true) (buf : List Host.Cell) :
    (State.resetWith c buf).ring.inRange c.rbSize = true :=
  Ring.inRange_iff.mpr ⟨rbSize_pos hc, rbSize_pos hc⟩

theorem resetWith_inv (hc : configOk c = true) (hlen : bytes.length ≤ c.rbSize) :
    (State.resetWith c (memOfBytes 0 bytes)).Inv where
  config := hc
  bufWf := memOfBytes_wf bytes
  bufWithin := memOfBytes_within bytes 0 c.rbSize ((Nat.zero_add _).trans_le hlen)
  ringRange := resetWith_ringRange hc _
  tLastFits := Nat.two_pow_pos _
  nowFits := Nat.two_pow_pos _
  pageRange := pageNum_pos hc
  lineRange := frameHeight_pos hc
  slAddrFits := Nat.two_pow_pos _
  validFits := List.forall_mem_nil _
  validDepth := Nat.zero_le _
  freeFits := List.forall_mem_nil _
  freeDepth := Nat.zero_le _
  deHeldFits := List.forall_mem_nil _
  validLogFits := List.forall_mem_nil _
  heldPhase := nofun
  gated := fun _ => ⟨rfl, rfl⟩

/-- Nothing has been enqueued, and the engine holds and has returned nothing. -/
theorem resetWith_accounted (c : Config) (buf : List Host.Cell) : (State.resetWith c buf).HandoffAccounted :=
  ⟨[], rfl, fun _ => le_rfl⟩

/-- Settles O53: the reset state is that of a sound configuration with no byte listed in the ring array, and with `run` = 0
nothing is asked of the latch. -/
theorem resetMeetsInvariants : Obligations.ResetMeetsInvariants := by
  have default_ok : configOk Config.default = true := by decide
  exact ⟨⟨resetWith_inv (bytes := []) default_ok (Nat.zero_le _), resetWith_accounted _ _, .of_not_run rfl⟩,
    fun c bytes hc hlen => ⟨resetWith_inv hc hlen, resetWith_accounted c _⟩⟩

/-! ### The ring buffer after a reset and a bulk push (R100, R103) -/

theorem resetWith_count (c : Config) (buf : List Host.Cell) : (State.resetWith c buf).ring.count c.rbSize = 0 := by
  change (0 + c.rbSize - 0) % c.rbSize = 0
  rw [Nat.zero_add, Nat.sub_zero, Nat.mod_self]

theorem resetWith_live (c : Config) (buf : List Host.Cell) : (State.resetWith c buf).live = [] :=
  List.length_eq_zero_iff.mp (Ring.live_length.trans (resetWith_count c buf))

/-- An empty ring buffer has room for `RB_SIZE - 1` bytes. -/
theorem resetWith_accepted (c : Config) (buf : List Host.Cell) (stop : Bool) (bs : List Byte) :
    (State.resetWith c buf).ring.accepted c stop bs = (bulkText c stop bs).take (c.rbSize - 1) := by
  rw [Ring.accepted, Ring.space, resetWith_count, Nat.sub_zero]

/-- The bytes a bulk push enqueues become the newest live ones, in order. -/
theorem Ring.live_bulkPush {r : Ring} (hr : r.inRange c.rbSize = true) (hw : Memory.wf r.buf = true) (stop : Bool)
    (bs : List Byte) : (r.bulkPush c stop bs).1.live c.rbSize = r.live c.rbSize ++ r.accepted c stop bs := by
  rw [Ring.bulkPush_eq hr hw]
  exact Ring.live_storeAll hr hw (List.length_take_le _ _)

/-! ### The boot sequence (R223, R224) -/

/-- What `BOOT` leaves: the page shown, the identification bytes pushed, the sequencer started. -/
def State.booted (s : State) : State :=
  { (s.display (digitOf s.page)).bulk true s.cfg.identString with run := true, phase := 0 }.ret {}

/-- `BOOT` runs `SEG_PAGE`, `RB_PUSHBS` and `SYS_RUN`, none of which holds. -/
theorem execPseudo_boot_booted (hr : s.ring.inRange s.cfg.rbSize = true) (hh : s.held = false) :
    execPseudo .boot s = .next s.booted := by
  calc execPseudo .boot s
      = execAll [.rbPushBS s.cfg.identString, .sysRun] (s.display (digitOf s.page)) := execAll_cons (exec_segPage s) hh
    _ = execAll [.sysRun] ((s.display (digitOf s.page)).bulk true s.cfg.identString) :=
        execAll_cons (exec_rbPushBS_next.mpr ⟨hr, rfl⟩) hh
    _ = .next s.booted := execAll_cons (exec_sysRun _) hh

theorem booted_live (hr : s.ring.inRange s.cfg.rbSize = true) (hw : Memory.wf s.ring.buf = true) :
    s.booted.live = s.live ++ s.ring.accepted s.cfg true s.cfg.identString :=
  Ring.live_bulkPush hr hw true s.cfg.identString

/-- Settles O56: the boot commands complete, and the push finds an empty ring buffer with room for `RB_SIZE - 1` bytes. -/
theorem bootSequence : Obligations.BootSequence := by
  intro c bytes hc hsentinel _
  have hr := resetWith_ringRange hc (memOfBytes 0 bytes)
  refine ⟨_, execPseudo_boot_booted hr rfl, rfl, rfl, rfl, rfl, ?_⟩
  calc (State.resetWith c (memOfBytes 0 bytes)).booted.live
      = (State.resetWith c (memOfBytes 0 bytes)).live ++
          (State.resetWith c (memOfBytes 0 bytes)).ring.accepted c true c.identString :=
        booted_live hr (memOfBytes_wf bytes)
    _ = (c.identString.takeWhile fun b => b != c.sentinel).take (c.rbSize - 1) := by
        rw [resetWith_live, List.nil_append, resetWith_accepted, bulkText_before_sentinel hsentinel]

end Sys2Proof.Machine
end
